-- ==== Sys2Proof/Word.lean ====
section
/-! DEFINITION. The word types of the EADOGM128 CORE: page bytes and operand bytes, command words, framebuffer
addresses and register numbers (00_scope.md R10, 20_memory.md R42, 30_encoding.md R60, 44_system.md R140). -/

namespace Sys2Proof

/-- A `u8`: an operand byte (R62), a page byte (R41), a glyph byte (R43) or an 8-bit register value (R140). -/
abbrev Byte := BitVec 8

/-- A 64-bit command word `W` (R60). -/
abbrev CommandWord := BitVec 64

/-- A framebuffer address, ten bits wide on both ports (R42). -/
abbrev FbAddr := BitVec 10

/-- A register number of the register port, two bits wide (R140, R141). -/
abbrev RegNum := BitVec 2

end Sys2Proof
end

