-- ==== Sys2Proof/Syntax.lean ====
section
/-! DEFINITION. The eleven commands of CORE-1, one constructor for each row of spec/opcode_table.json, with the
operands in the order of 30_encoding.md R63.

Every operand is an unsigned byte (R62). Mode and thickness operands stay bytes here, because a word may carry
any value in them and the command's own rule, not the decoder, judges it (R64, R68, R69). -/

namespace Sys2Proof

/-- A decoded command: its operation and exactly the operand bytes its format names (R61, R63). -/
inductive Instr where
  /-- `PIX row, col, m` (0x01, F3, R81): set or clear one pixel. -/
  | pix (row col m : Byte)
  /-- `POINT row, col, t, m` (0x02, F4, R82): one pixel or a five-pixel plus. -/
  | point (row col t m : Byte)
  /-- `HLINE col_a, col_b, row, t, m` (0x03, F5, R91): horizontal line. -/
  | hline (colA colB row t m : Byte)
  /-- `VLINE col, row_a, row_b, t, m` (0x04, F5, R92): vertical line. -/
  | vline (col rowA rowB t m : Byte)
  /-- `LINE x1, y1, x2, y2, t, m` (0x05, F6, R93): general line. -/
  | line (x1 y1 x2 y2 t m : Byte)
  /-- `RECT x1, y1, x2, y2, t, m` (0x06, F6, R100): outline of a rectangle. -/
  | rect (x1 y1 x2 y2 t m : Byte)
  /-- `ARC cx, cy, r, a_start, a_end, t, m` (0x07, F7, R108): arc or full circle. -/
  | arc (cx cy r aStart aEnd t m : Byte)
  /-- `PUTC c` (0x08, F1, R122): sequential character output at the cursor. -/
  | putc (c : Byte)
  /-- `SETPG p` (0x09, F1, R125): set the cursor page. -/
  | setpg (p : Byte)
  /-- `SETCOL c` (0x0A, F1, R126): set the cursor column. -/
  | setcol (c : Byte)
  /-- `PUTCAT row, col, c` (0x0B, F3, R130): character at an arbitrary pixel row. -/
  | putcat (row col c : Byte)
deriving DecidableEq, Repr

/-- The mnemonics of R63, as the assembler writes them. -/
inductive Mnemonic where
  | pix | point | hline | vline | line | rect | arc | putc | setpg | setcol | putcat
deriving DecidableEq, Repr

/-- A command as it is written in source text, before it is packed into a word (R70): the mnemonic and the
operands as plain numbers, of any count and any size. -/
structure SourceCommand where
  mnemonic : Mnemonic
  operands : List Nat
deriving DecidableEq, Repr

end Sys2Proof
end

