-- ==== Sys2Proof/WellFormed.lean ====
section
/-! DEFINITION. What makes a written command well formed: as many operands as its format names (30_encoding.md R61)
and every operand an unsigned byte (R62).

A decoded `Instr` carries exactly its operand bytes, so it is always well formed: no operand value makes a word
undecodable (R64). Values a command rejects (a mode that is neither 's' nor 'c', a row of 64) are well formed here
and are answered in `ERR` by the command's own rule. -/

namespace Sys2Proof

/-- The number of operand bytes of each command's format (R61, R63). -/
def Mnemonic.arity : Mnemonic → Nat
  | .pix => 3
  | .point => 4
  | .hline => 5
  | .vline => 5
  | .line => 6
  | .rect => 6
  | .arc => 7
  | .putc => 1
  | .setpg => 1
  | .setcol => 1
  | .putcat => 3

/-- The number of operands is the format's (R61). -/
def SourceCommand.arityFits (c : SourceCommand) : Bool :=
  c.operands.length == c.mnemonic.arity

/-- Every operand is one unsigned byte, 0 to 255 (R62). -/
def SourceCommand.operandsFit (c : SourceCommand) : Bool :=
  c.operands.all fun v => decide (v < 256)

/-- A written command that has a command word. -/
def SourceCommand.wellFormed (c : SourceCommand) : Bool :=
  c.arityFits && c.operandsFit

/-- The mnemonic of a command (R63). -/
def Instr.mnemonic : Instr → Mnemonic
  | .pix _ _ _ => .pix
  | .point _ _ _ _ => .point
  | .hline _ _ _ _ _ => .hline
  | .vline _ _ _ _ _ => .vline
  | .line _ _ _ _ _ _ => .line
  | .rect _ _ _ _ _ _ => .rect
  | .arc _ _ _ _ _ _ _ => .arc
  | .putc _ => .putc
  | .setpg _ => .setpg
  | .setcol _ => .setcol
  | .putcat _ _ _ => .putcat

/-- The operand bytes of a command in the order `a0`, `a1`, … of R63. -/
def Instr.operandBytes : Instr → List Byte
  | .pix row col m => [row, col, m]
  | .point row col t m => [row, col, t, m]
  | .hline colA colB row t m => [colA, colB, row, t, m]
  | .vline col rowA rowB t m => [col, rowA, rowB, t, m]
  | .line x1 y1 x2 y2 t m => [x1, y1, x2, y2, t, m]
  | .rect x1 y1 x2 y2 t m => [x1, y1, x2, y2, t, m]
  | .arc cx cy r aStart aEnd t m => [cx, cy, r, aStart, aEnd, t, m]
  | .putc c => [c]
  | .setpg p => [p]
  | .setcol c => [c]
  | .putcat row col c => [row, col, c]

/-- How a decoded command is written (R70). -/
def Instr.source (i : Instr) : SourceCommand :=
  { mnemonic := i.mnemonic, operands := i.operandBytes.map BitVec.toNat }

/-- Well-formedness of a decoded command: its written form is well formed. -/
def Instr.wellFormed (i : Instr) : Bool := i.source.wellFormed

end Sys2Proof
end

