-- ==== Sys2Proof/Decode.lean ====
section
/-! DEFINITION. The command encoding of 30_encoding.md, read in both directions: the decoder (total, rejecting by
name, R64), the encoder, the byte-serial form of a command word (R56), the pseudo-commands (R71), and the function the
host asks about table rows. -/

namespace Sys2Proof

/-! ## Fields of a command word -/

/-- Byte `k` of a command word, bits [8k+7 : 8k] (R56, R60): byte 0 is `op`, byte k+1 is operand byte `ak`. -/
def byteField (w : CommandWord) (k : Nat) : Byte := w.extractLsb' (8 * k) 8

/-- The word with the given bytes, byte 0 first and least significant; bytes not given are 0x00 (R56, R65). -/
def packBytes : List Byte → CommandWord
  | [] => 0
  | b :: bs => b.setWidth 64 ||| (packBytes bs <<< 8)

/-! ## The opcode map -/

/-- The opcode of each mnemonic (R63). -/
def Mnemonic.opcode : Mnemonic → Byte
  | .pix => 0x01
  | .point => 0x02
  | .hline => 0x03
  | .vline => 0x04
  | .line => 0x05
  | .rect => 0x06
  | .arc => 0x07
  | .putc => 0x08
  | .setpg => 0x09
  | .setcol => 0x0A
  | .putcat => 0x0B

/-- Why the decoder gives no command. -/
inductive DecodeError where
  /-- The opcode byte is 0x00 or 0x0C to 0xFF (R66). -/
  | illegalOpcode (op : Byte)
  /-- A byte-serial host has sent fewer than the eight bytes of a command word (R56, R60). -/
  | incompleteWord (received : Nat)
deriving DecidableEq, Repr

/-- `Decode(W)` (R63, R64): only `W[7:0]` selects the command, the operands come from the bytes the format names, and
every other byte is ignored (R65). -/
def decode (w : CommandWord) : Except DecodeError Instr :=
  let op := byteField w 0
  let a0 := byteField w 1
  let a1 := byteField w 2
  let a2 := byteField w 3
  let a3 := byteField w 4
  let a4 := byteField w 5
  let a5 := byteField w 6
  let a6 := byteField w 7
  match op.toNat with
  | 0x01 => .ok (.pix a0 a1 a2)
  | 0x02 => .ok (.point a0 a1 a2 a3)
  | 0x03 => .ok (.hline a0 a1 a2 a3 a4)
  | 0x04 => .ok (.vline a0 a1 a2 a3 a4)
  | 0x05 => .ok (.line a0 a1 a2 a3 a4 a5)
  | 0x06 => .ok (.rect a0 a1 a2 a3 a4 a5)
  | 0x07 => .ok (.arc a0 a1 a2 a3 a4 a5 a6)
  | 0x08 => .ok (.putc a0)
  | 0x09 => .ok (.setpg a0)
  | 0x0A => .ok (.setcol a0)
  | 0x0B => .ok (.putcat a0 a1 a2)
  | _ => .error (.illegalOpcode op)

/-! ## Encoding -/

/-- The word of a command: opcode, operand bytes, and 0x00 in every unused byte (R60, R63, R65). -/
def encode (i : Instr) : CommandWord := packBytes (i.mnemonic.opcode :: i.operandBytes)

/-- 0xFF in the opcode byte and in each operand byte of the command's format, 0x00 in the ignored bytes (R61, R65). -/
def Instr.usedMask (i : Instr) : CommandWord := packBytes (List.replicate (i.mnemonic.arity + 1) 0xFF)

/-- The word of a written command; a command that is not well formed has none (R61, R62, R70). -/
def SourceCommand.word (c : SourceCommand) : Option CommandWord :=
  if c.wellFormed then some (packBytes (c.mnemonic.opcode :: c.operands.map (BitVec.ofNat 8))) else none

/-! ## The byte-serial form -/

/-- The eight bytes of a word in the order a byte-serial host sends them, byte 0 first (R56). -/
def bytesOfWord (w : CommandWord) : List Byte := (List.range 8).map (byteField w)

/-- Take one command from a byte stream: eight bytes, byte 0 first, and the rest of the stream (R56, R60). -/
def decodeBytes (bytes : List Byte) : Except DecodeError (Instr × List Byte) :=
  if bytes.length < 8 then
    .error (.incompleteWord bytes.length)
  else
    match decode (packBytes (bytes.take 8)) with
    | .ok i => .ok (i, bytes.drop 8)
    | .error e => .error e

/-- The instruction the decoder reads from a table row's bits, laid out as the eight bytes of a command word. -/
def decodeTableWord (nbits w : Nat) : Option Instr :=
  match decodeBytes (bytesOfWord (BitVec.ofNat 64 (w % 2 ^ nbits))) with
  | .ok (i, _) => some i
  | .error _ => none

/-! ## Pseudo-commands (R71) -/

/-- `CIRCLE cx, cy, r, t, m`: an arc whose two angles are both 0. -/
def Instr.circle (cx cy r t m : Byte) : Instr := .arc cx cy r 0 0 t m

/-- `SETPIX row, col`. -/
def Instr.setPix (row col : Byte) : Instr := .pix row col 0x73

/-- `CLRPIX row, col`. -/
def Instr.clrPix (row col : Byte) : Instr := .pix row col 0x63

/-- `NEWLINE`. -/
def Instr.newline : Instr := .putc 0x0A

/-- `deg(d)`: `d*32/45` with floor division, reduced mod 256. -/
def degrees (d : Nat) : Nat := d * 32 / 45 % 256

end Sys2Proof
end

