-- ==== Sys2Proof/Machine/State.lean ====
section
/-! DEFINITION. The state of CORE (10_state.md R20), the host's side of the three ports (00_scope.md R9), the error
codes (60_exceptions.md R150), the reasons a step can stop, and the reset state (R32, R170). -/

namespace Sys2Proof.Machine

/-! ## The framebuffer -/

/-- The framebuffer RAM `FB` (R23, R40): the cells whose byte is not 0x00, as pairs of linear address (R42) and byte,
addresses strictly rising. A cell not listed holds 0x00, its reset contents (R32). -/
abbrev Memory := List Host.Cell

/-! ## What the host presents -/

/-- One transaction on the ports of CORE, each atomic with respect to the others (R9, R52). -/
inductive Request where
  /-- Command port: issue of one 64-bit command word (R9, R60). -/
  | command (w : CommandWord)
  /-- Register port: `RegRead(n)` (R140). -/
  | regRead (n : RegNum)
  /-- Export port, port B: `FbRead(a)` (R50). -/
  | fbRead (a : FbAddr)
  /-- The reset event between two transactions (R170, R142). Log entry 5. -/
  | reset
deriving DecidableEq, Repr

/-! ## Outcomes of a command -/

/-- The value a command leaves in `ERR` (R150). `toByte` in Machine/Flags.lean gives the codes. -/
inductive ErrCode where
  | ok | outOfRangeRow | outOfRangeCol | outOfRangePage | invalidMode | unsupportedThickness
  | unsupportedCharacter | illegalCommand
deriving DecidableEq, Repr

/-- Why a step stops. The spec names no stop: its errors are codes in `ERR` after which execution continues (R151). -/
inductive Fault where
  /-- An access names a framebuffer cell that does not exist: a page above 7 or a column above 127 (R42). Raised by
  the page-byte accesses of Machine/Ops.lean and by the line-feed, and met only where `CUR_PAGE` holds 9 to 15, values
  that no rule ever produces (R24, R31). Safe: the machine stops and no value is invented. Log entry 4. -/
  | noSuchCell (page col : Nat)
deriving DecidableEq, Repr

/-- Why an instruction has no meaning. -/
inductive Refusal where
  /-- Raised by an arm of `exec` whose instruction is not modelled. No arm raises it in this model. Safe: nothing is
  claimed of what follows. -/
  | notModelled (mnemonic : String)
deriving DecidableEq, Repr

/-! ## The state -/

/-- The architectural state of CORE is `fb`, `curPage`, `curCol`, `err` and `ret`, and nothing else (R20). `requests`
and `replies` belong to the host, not to CORE (R21, R33): they are how a run of transactions is presented to `step` and
how the values of reads are handed back. Log entry 1. -/
structure State where
  /-- `FB`, 8 pages × 128 columns of page bytes (R23). -/
  fb : Memory
  /-- `CUR_PAGE`, register 1, 4 bits, values 0 to 8 (R24). -/
  curPage : BitVec 4
  /-- `CUR_COL`, register 2, 8 bits, values 0 to 127 (R25). -/
  curCol : BitVec 8
  /-- `ERR`, register 0, 8 bits, values 0 to 7 (R26). -/
  err : BitVec 8
  /-- `RET`, register 3, 8 bits (R27). -/
  ret : BitVec 8
  /-- The host's transactions not yet accepted, in the order of issue (R21). Not state of CORE. -/
  requests : List Request
  /-- The values returned to the host by register and export reads, oldest first. Not state of CORE. -/
  replies : List Byte
deriving DecidableEq, Repr

/-- The state after reset (R32, R170): every framebuffer byte 0x00, the four registers 0, no command in progress. -/
def State.reset : State :=
  { fb := [], curPage := 0, curCol := 0, err := 0, ret := 0, requests := [], replies := [] }

end Sys2Proof.Machine
end

