-- ==== Sys2Proof/Machine/Operands.lean ====
section
/-! DEFINITION. Operand forms and the integer operators of the pseudocode: operand bytes as integers (30_encoding.md
R62), mode (R68) and thickness (R69) bytes, loops and the arithmetic shift (00_scope.md R11, R12). -/

namespace Sys2Proof.Machine

/-- An operand byte used as an `int`: an unsigned number 0 to 255, never wrapped and never sign-extended (R62). -/
def operand (b : Byte) : Int := (b.toNat : Int)

/-- Set turns a pixel on, Clear turns it off (R13). -/
inductive Mode where
  | set | clear
deriving DecidableEq, Repr

/-- The value a mode gives to a pixel (R23): 1 for Set, 0 for Clear. -/
def Mode.bit : Mode → Bool
  | .set => true
  | .clear => false

/-- The two mode bytes, 0x73 ('s') for Set and 0x63 ('c') for Clear (R68). -/
def Mode.byte : Mode → Byte
  | .set => 0x73
  | .clear => 0x63

/-- `Mode(m)` of R80. It is used only where `m` has been checked to be one of the two mode bytes. -/
def modeOf (m : Byte) : Mode := if m = 0x73 then .set else .clear

/-- A pixel position: `row` grows downward, `col` to the right (R13). In LINE, RECT and ARC the point (x, y) is row y,
column x (R90). Arc samples may lie off the display, so both are `int` (R107). -/
structure Point where
  row : Int
  col : Int
deriving DecidableEq, Repr

/-- The values of a `for v = a .. b` loop in order; none when a > b (R12). -/
def loopRange (a b : Int) : List Int := (List.range (b - a + 1).toNat).map fun (k : Nat) => a + k

/-- `asr(a, n)` = floor(a / 2^n) for any sign of `a` (R11). -/
def asr (a : Int) (n : Nat) : Int := a / (2 ^ n : Int)

end Sys2Proof.Machine
end

