-- ==== Sys2Proof/Machine/Flags.lean ====
section
/-! DEFINITION. The status of a command. CORE has no condition codes (10_state.md R27): its one status value is the
error code in `ERR` (60_exceptions.md R150), computed by the checks of 40_pixel_point.md R80 in the order of R154. -/

namespace Sys2Proof.Machine

/-- The error code numbers (R150). -/
def ErrCode.toByte : ErrCode → Byte
  | .ok => 0
  | .outOfRangeRow => 1
  | .outOfRangeCol => 2
  | .outOfRangePage => 3
  | .invalidMode => 4
  | .unsupportedThickness => 5
  | .unsupportedCharacter => 6
  | .illegalCommand => 7

/-- The first code that is not OK, or OK if all are (R80, R100, R153): of several checks the first failing one is
reported, and of several sub-operations the first failing one. -/
def firstErr : List ErrCode → ErrCode
  | [] => .ok
  | .ok :: es => firstErr es
  | e :: _ => e

/-- The mode check (R68, R80). -/
def checkMode (m : Byte) : ErrCode := if m ≠ 0x73 ∧ m ≠ 0x63 then .invalidMode else .ok

/-- `CheckTM(t, m)` (R80): thickness, then mode. -/
def checkTM (t m : Byte) : ErrCode := if t.toNat > 1 then .unsupportedThickness else checkMode m

/-- `CheckPt(row, col)` (R80): row first, then column. -/
def checkPt (row col : Int) : ErrCode :=
  if row < 0 ∨ row ≥ 64 then .outOfRangeRow
  else if col < 0 ∨ col ≥ 128 then .outOfRangeCol
  else .ok

end Sys2Proof.Machine
end

