-- ==== Sys2Proof/Machine/Ops.lean ====
section
/-! DEFINITION. The named operations over the framebuffer and the registers: the framebuffer RAM and its canonical form
(20_memory.md R40 to R43), the pixel addresser (R44, R45), painting a list of pixels, the page-byte accesses of the
glyph blitter (R46), the end of a command (60_exceptions.md R152), and the two read transactions (R50, R140).

CORE takes no exception and returns from none (R156, R157): `State.finish` is the whole of what an error does to the
machine, and every command ends with it. -/

namespace Sys2Proof.Machine

/-! ## The framebuffer RAM -/

/-- `MemRead(a, 1)` (R12): the byte of the cell at linear address `a`. A cell not listed reads 0x00 (R32). -/
def Memory.read : Memory → Nat → Byte
  | [], _ => 0
  | (k, v) :: rest, a => if a = k then v else Memory.read rest a

/-- The memory with the cell at `a` no longer listed, so that it reads 0x00. -/
def Memory.erase : Memory → Nat → Memory
  | [], _ => []
  | (k, v) :: rest, a => if a = k then Memory.erase rest a else (k, v) :: Memory.erase rest a

/-- The memory with the cell at `a` listed with the byte `v`, its address in its place. -/
def Memory.insert : Memory → Nat → Byte → Memory
  | [], a, v => [(a, v)]
  | (k, w) :: rest, a, v =>
    if a < k then (a, v) :: (k, w) :: rest
    else if a = k then (a, v) :: rest
    else (k, w) :: Memory.insert rest a v

/-- `MemWrite(a, 1, v)` (R12): replace the byte at `a`. Writing 0x00 unlists the cell, so equal contents are equal lists. -/
def Memory.write (m : Memory) (a : Nat) (v : Byte) : Memory :=
  if v = 0 then Memory.erase m a else Memory.insert m a v

/-- The canonical form of a memory whose addresses are all at least `lo`. -/
def Memory.wfFrom : Nat → Memory → Bool
  | _, [] => true
  | lo, (k, v) :: rest => decide (lo ≤ k) && decide (k < 1024) && decide (v ≠ 0) && Memory.wfFrom (k + 1) rest

/-- The canonical form: addresses strictly rising and below 1024 (R42), and no cell listed with 0x00. -/
def Memory.wf (m : Memory) : Bool := Memory.wfFrom 0 m

/-! ## The pixel addresser -/

/-- Where a pixel lives: its page, its bit in the page byte, the linear address of that byte, and the mask (R44). -/
structure PixelLoc where
  page : Nat
  bit : Nat
  addr : FbAddr
  mask : Byte
deriving DecidableEq, Repr

/-- The linear address of cell (p, c), `p*128 + c` in ten bits (R42). -/
def cellAddr (page col : Nat) : FbAddr := BitVec.ofNat 10 (page * 128 + col)

/-- `PixelAddr(row, col)` (R44), for 0 ≤ row ≤ 63 and 0 ≤ col ≤ 127; every caller checks the ranges first (R45). -/
def pixelAddr (row col : Nat) : PixelLoc :=
  { page := row / 8, bit := row % 8, addr := cellAddr (row / 8) col, mask := (1 : Byte) <<< (row % 8) }

/-- A page byte with the masked pixel set (OR with the mask) or cleared (AND with its complement) (R45). -/
def Mode.apply (m : Mode) (mask old : Byte) : Byte :=
  match m with
  | .set => old ||| mask
  | .clear => old &&& ~~~mask

/-- The display is 64 rows by 128 columns (R41). -/
def Point.onDisplay (p : Point) : Bool :=
  decide (0 ≤ p.row) && decide (p.row < 64) && decide (0 ≤ p.col) && decide (p.col < 128)

/-- `PixelWrite(row, col, m)` (R45): a masked read-modify-write of one page byte. A pixel off the display is rejected
silently, with no access. -/
def pixelWrite (m : Mode) (fb : Memory) (p : Point) : Memory :=
  if p.onDisplay then
    let loc := pixelAddr p.row.toNat p.col.toNat
    fb.write loc.addr.toNat (m.apply loc.mask (fb.read loc.addr.toNat))
  else fb

/-- `PixelWrite` of each pixel of a list, in the order of the list (R53). -/
def paint (m : Mode) (ps : List Point) (fb : Memory) : Memory := ps.foldl (pixelWrite m) fb

/-- The pixel at row `row`, column `col`: bit `row % 8` of `FB[row/8][col]` (R23, R43). -/
def Memory.pixel (fb : Memory) (row col : Nat) : Bool :=
  (fb.read (pixelAddr row col).addr.toNat).getLsbD (pixelAddr row col).bit

/-! ## Page-byte accesses of the glyph blitter -/

/-- The address of cell (page, col); a page above 7 or a column above 127 names no cell (R42). -/
def cellAt (page col : Nat) : Except Fault FbAddr :=
  if page < 8 ∧ col < 128 then .ok (cellAddr page col) else .error (.noSuchCell page col)

/-- The OR-write `FB[p][c] <- FB[p][c] | v` (R46). -/
def orCell (page col : Nat) (v : Byte) (fb : Memory) : Except Fault Memory :=
  match cellAt page col with
  | .ok a => .ok (fb.write a.toNat (fb.read a.toNat ||| v))
  | .error f => .error f

/-- The zero-write `FB[p][c] <- 0x00` (R46). -/
def zeroCell (page col : Nat) (fb : Memory) : Except Fault Memory :=
  match cellAt page col with
  | .ok a => .ok (fb.write a.toNat 0)
  | .error f => .error f

/-- Zero-writes of `n` consecutive columns of a page, from column `col` on, in increasing order (R123). -/
def zeroSpan (page : Nat) : Nat → Nat → Memory → Except Fault Memory
  | _, 0, fb => .ok fb
  | col, n + 1, fb =>
    match zeroCell page col fb with
    | .ok fb' => zeroSpan page (col + 1) n fb'
    | .error f => .error f

/-- OR-writes of glyph bytes into consecutive columns of a page, from column `col` on (R124). -/
def orBlit (page : Nat) : Nat → List Byte → Memory → Except Fault Memory
  | _, [], fb => .ok fb
  | col, v :: vs, fb =>
    match orCell page col v fb with
    | .ok fb' => orBlit page (col + 1) vs fb'
    | .error f => .error f

/-! ## The end of a command -/

/-- A command ends by writing `ERR`, once: 0 on success, the code on failure (R152). Nothing else is saved or changed
by an error (R156). -/
def State.finish (s : State) (e : ErrCode) : State := { s with err := e.toByte }

/-- `raise Err(code)` (R12): the command ends at once and writes nothing but `ERR`. Execution goes on with the next
command (R151). -/
def raise (e : ErrCode) (s : State) : Host.Outcome State Fault Refusal := .next (s.finish e)

/-- The end of a command built of sub-operations that yield a code and a framebuffer (R91 to R94, R100, R108). -/
def conclude (r : ErrCode × Memory) (s : State) : Host.Outcome State Fault Refusal :=
  .next ({ s with fb := r.2 }.finish r.1)

/-- The successful end of a command whose accesses may name a cell that does not exist. -/
def deliver (r : Except Fault State) : Host.Outcome State Fault Refusal :=
  match r with
  | .ok s => .next (s.finish .ok)
  | .error f => .fault f

/-- An illegal command word changes no state except `ERR <- 7` (R66). -/
def illegalCommand (s : State) : Host.Outcome State Fault Refusal := raise .illegalCommand s

/-! ## Read transactions and reset -/

/-- `RegRead(n)` (R140, R141): the register zero-extended to 8 bits. Bits 7 to 3 of `ERR` always read 0 (R26). -/
def regRead (n : RegNum) (s : State) : Byte :=
  match n.toNat with
  | 0 => s.err &&& 0x07
  | 1 => s.curPage.setWidth 8
  | 2 => s.curCol
  | _ => s.ret

/-- `FbRead(a)` (R50): the current byte of cell (a / 128, a % 128). -/
def fbRead (a : FbAddr) (s : State) : Byte := s.fb.read a.toNat

/-- A byte handed to the host as the answer of a read. CORE's own state is unchanged (R48, R50, R140). -/
def State.reply (s : State) (v : Byte) : State := { s with replies := s.replies ++ [v] }

/-- The reset event (R170): CORE's state takes its reset values; the host's side is not CORE's. -/
def State.coreReset (s : State) : State :=
  { State.reset with requests := s.requests, replies := s.replies }

/-- The order in which the transport reads the framebuffer: linear addresses 0, 1, …, 1023 (R51). -/
def exportOrder : List FbAddr := (List.range 1024).map (BitVec.ofNat 10)

/-- The frame the transport delivers when it reads the whole framebuffer between commands (R51). -/
def exportFrame (s : State) : List Byte := exportOrder.map fun a => fbRead a s

end Sys2Proof.Machine
end

