-- ==== Sys2Proof/Machine/Pixel.lean ====
section
/-! DEFINITION. The pixel and point commands (40_pixel_point.md): the point cluster R83, PIX R81, POINT R82. -/

namespace Sys2Proof.Machine

/-- The pixels of `PointBody(row, col, t, m)` in the order they are written (R83): the centre and, for thickness 1,
its neighbours north, west, south and east. North is skipped when row = 0 and west when col = 0; a south or east
neighbour off the display is rejected by `pixelWrite` itself. -/
def cluster (t : Byte) (p : Point) : List Point :=
  if t = 1 then
    [p]
      ++ (if p.row ≠ 0 then [{ row := p.row - 1, col := p.col }] else [])
      ++ (if p.col ≠ 0 then [{ row := p.row, col := p.col - 1 }] else [])
      ++ [{ row := p.row + 1, col := p.col }, { row := p.row, col := p.col + 1 }]
  else [p]

/-- `PointBody` at each point of a list, in the order of the list (R83). -/
def drawPoints (t m : Byte) (ps : List Point) (fb : Memory) : Memory :=
  paint (modeOf m) (ps.flatMap (cluster t)) fb

/-- A sub-operation that draws points only if all its checks pass, and yields the first failing code otherwise
(R91, R92, R94). -/
def drawChecked (checks : List ErrCode) (t m : Byte) (ps : List Point) (fb : Memory) : ErrCode × Memory :=
  match firstErr checks with
  | .ok => (.ok, drawPoints t m ps fb)
  | e => (e, fb)

/-- PIX (R81): mode, then row, then column; then one pixel. -/
def execPix (row col m : Byte) (s : State) : Host.Outcome State Fault Refusal :=
  conclude
    (drawChecked [checkMode m, checkPt (operand row) (operand col)] 0 m
      [{ row := operand row, col := operand col }] s.fb) s

/-- POINT (R82): thickness, mode, row, column of the centre; then the cluster of R83. -/
def execPoint (row col t m : Byte) (s : State) : Host.Outcome State Fault Refusal :=
  conclude
    (drawChecked [checkTM t m, checkPt (operand row) (operand col)] t m
      [{ row := operand row, col := operand col }] s.fb) s

end Sys2Proof.Machine
end

