-- ==== Sys2Proof/Machine/Line.lean ====
section
/-! DEFINITION. The line commands (41_line.md): HLINE R91, VLINE R92, LINE R93 and the general line sub-operation R94. -/

namespace Sys2Proof.Machine

/-- The points of `HLine`, in increasing column order (R91). -/
def hLinePoints (colA colB row : Int) : List Point :=
  (loopRange (min colA colB) (max colA colB)).map fun c => { row := row, col := c }

/-- The points of `VLine`, in increasing row order (R92). -/
def vLinePoints (col rowA rowB : Int) : List Point :=
  (loopRange (min rowA rowB) (max rowA rowB)).map fun r => { row := r, col := col }

/-- The sub-operation `HLine(col_a, col_b, row, t, m)` (R91). -/
def hLine (colA colB row t m : Byte) (fb : Memory) : ErrCode × Memory :=
  drawChecked [checkTM t m, checkPt (operand row) (operand colA), checkPt (operand row) (operand colB)] t m
    (hLinePoints (operand colA) (operand colB) (operand row)) fb

/-- The sub-operation `VLine(col, row_a, row_b, t, m)` (R92). -/
def vLine (col rowA rowB t m : Byte) (fb : Memory) : ErrCode × Memory :=
  drawChecked [checkTM t m, checkPt (operand rowA) (operand col), checkPt (operand rowB) (operand col)] t m
    (vLinePoints (operand col) (operand rowA) (operand rowB)) fb

/-- The values the loop of `Line` keeps fixed (R94). -/
structure LineSetup where
  /-- The roles of x and y are transposed: the line is longer in y than in x. -/
  steep : Bool
  dx : Int
  dy : Int
  yStep : Int
deriving DecidableEq, Repr

/-- One point of the walk, transposed back when the line is steep (R94). -/
def LineSetup.plot (c : LineSetup) (x y : Int) : Point :=
  if c.steep then { row := x, col := y } else { row := y, col := x }

/-- The loop of `Line` with `n` iterations to go (R94): draw, subtract `dy` from the error, and step y when it goes
negative. -/
def LineSetup.walk (c : LineSetup) : Nat → Int → Int → Int → List Point
  | 0, _, _, _ => []
  | n + 1, x, y, err =>
    c.plot x y ::
      (if err - c.dy < 0 then c.walk n (x + 1) (y + c.yStep) (err - c.dy + c.dx)
       else c.walk n (x + 1) y (err - c.dy))

/-- The points of `Line` from (x1, y1) to (x2, y2) after transposition, so that |x2 − x1| ≥ |y2 − y1| (R94): the first
endpoint gets the smaller x, and the walk goes from it to the other. -/
def majorPoints (steep : Bool) (x1 y1 x2 y2 : Int) : List Point :=
  let dx : Int := (x2 - x1).natAbs
  let dy : Int := (y2 - y1).natAbs
  let xa := if x1 > x2 then x2 else x1
  let ya := if x1 > x2 then y2 else y1
  let yb := if x1 > x2 then y1 else y2
  let setup : LineSetup := { steep := steep, dx := dx, dy := dy, yStep := if yb > ya then 1 else -1 }
  setup.walk (dx.toNat + 1) xa ya (dx / 2)

/-- The points of `Line(x1, y1, x2, y2)` in the order they are drawn (R94). A line longer in y than in x is walked with
the roles of x and y exchanged. -/
def linePoints (x1 y1 x2 y2 : Int) : List Point :=
  if (y2 - y1).natAbs > (x2 - x1).natAbs then majorPoints true y1 x1 y2 x2 else majorPoints false x1 y1 x2 y2

/-- The sub-operation `Line(x1, y1, x2, y2, t, m)` (R94), with `int` coordinates: endpoint 1 is checked before endpoint
2, row before column. -/
def line (x1 y1 x2 y2 : Int) (t m : Byte) (fb : Memory) : ErrCode × Memory :=
  drawChecked [checkTM t m, checkPt y1 x1, checkPt y2 x2] t m (linePoints x1 y1 x2 y2) fb

/-- HLINE (R91). -/
def execHline (colA colB row t m : Byte) (s : State) : Host.Outcome State Fault Refusal :=
  conclude (hLine colA colB row t m s.fb) s

/-- VLINE (R92). -/
def execVline (col rowA rowB t m : Byte) (s : State) : Host.Outcome State Fault Refusal :=
  conclude (vLine col rowA rowB t m s.fb) s

/-- LINE (R93). -/
def execLine (x1 y1 x2 y2 t m : Byte) (s : State) : Host.Outcome State Fault Refusal :=
  conclude (line (operand x1) (operand y1) (operand x2) (operand y2) t m s.fb) s

end Sys2Proof.Machine
end

