-- ==== Sys2Proof/Machine/Shape.lean ====
section
/-! DEFINITION. The shape commands (42_shape.md): RECT R100, the sine ROM and functions R102 to R104, ARC R105 to R108. -/

namespace Sys2Proof.Machine

/-! ## Composite commands -/

/-- Sub-operations run one after another, every one of them whatever the codes of the others; the code is that of the
first that failed (R100, R108, R153). -/
def runAll : List (Memory → ErrCode × Memory) → Memory → ErrCode × Memory
  | [], fb => (.ok, fb)
  | op :: ops, fb => (firstErr [(op fb).1, (runAll ops (op fb).2).1], (runAll ops (op fb).2).2)

/-- The four sides of RECT in order: top, bottom, left, right (R100). -/
def rectSides (x1 y1 x2 y2 t m : Byte) : List (Memory → ErrCode × Memory) :=
  [hLine x1 x2 y1 t m, hLine x1 x2 y2 t m, vLine x1 y1 y2 t m, vLine x2 y1 y2 t m]

/-- RECT (R100): no check of its own. -/
def execRect (x1 y1 x2 y2 t m : Byte) (s : State) : Host.Outcome State Fault Refusal :=
  conclude (runAll (rectSides x1 y1 x2 y2 t m) s.fb) s

/-! ## The sine functions -/

/-- `SIN_TAB[0..64]` (R104). -/
def sinTable : List Nat :=
  [0, 2, 3, 5, 6, 8, 9, 11,
   12, 14, 16, 17, 19, 20, 22, 23,
   24, 26, 27, 29, 30, 32, 33, 34,
   36, 37, 38, 39, 41, 42, 43, 44,
   45, 46, 47, 48, 49, 50, 51, 52,
   53, 54, 55, 56, 56, 57, 58, 59,
   59, 60, 60, 61, 61, 62, 62, 62,
   63, 63, 63, 64, 64, 64, 64, 64,
   64]

/-- `SIN_TAB[i]`, for i = 0 … 64 (R104). -/
def sinTab (i : Nat) : Int := (sinTable.getD i 0 : Nat)

/-- `dsin(a)` (R102): the quadrant is `a[7:6]`, the index into the quarter wave `a[5:0]`. -/
def dsin (a : Byte) : Int :=
  let i := (a.extractLsb' 0 6).toNat
  match (a.extractLsb' 6 2).toNat with
  | 0 => sinTab i
  | 1 => sinTab (64 - i)
  | 2 => -sinTab i
  | _ => -sinTab (64 - i)

/-- `dcos(a) = dsin((a + 64) mod 256)` (R103). -/
def dcos (a : Byte) : Int := dsin (a + 64)

/-! ## ARC -/

/-- `Sweep(a0, a1)` (R105), 1 to 256. -/
def sweep (aStart aEnd : Byte) : Nat :=
  if aEnd.toNat > aStart.toNat then aEnd.toNat - aStart.toNat else 256 - aStart.toNat + aEnd.toNat

/-- `Steps(r, dw)` (R106): at least one step. -/
def arcSteps (r dw : Nat) : Nat := max 1 ((r * dw * 201) >>> 14)

/-- `Angle(i)` (R107): multiplied before the floor division, then reduced mod 256. -/
def arcAngle (aStart : Byte) (dw steps i : Nat) : Byte := BitVec.ofNat 8 (aStart.toNat + dw * i / steps)

/-- `Sample(i)` (R107): the shift applies to the product only, and rounds toward minus infinity. -/
def arcSample (cx cy r aStart : Byte) (dw steps i : Nat) : Point :=
  { col := operand cx + asr (operand r * dcos (arcAngle aStart dw steps i)) 6,
    row := operand cy + asr (operand r * dsin (arcAngle aStart dw steps i)) 6 }

/-- `Line` from one sample to the next (R108). -/
def segment (p q : Point) (t m : Byte) : Memory → ErrCode × Memory := line p.col p.row q.col q.row t m

/-- The segments of an arc, from Sample(i − 1) to Sample(i) for i = 1 … steps (R108). -/
def arcSegments (cx cy r aStart aEnd t m : Byte) : List (Memory → ErrCode × Memory) :=
  let dw := sweep aStart aEnd
  let steps := arcSteps r.toNat dw
  (List.range steps).map fun i =>
    segment (arcSample cx cy r aStart dw steps i) (arcSample cx cy r aStart dw steps (i + 1)) t m

/-- ARC (R108): the thickness check, then every segment. -/
def execArc (cx cy r aStart aEnd t m : Byte) (s : State) : Host.Outcome State Fault Refusal :=
  if t.toNat > 1 then raise .unsupportedThickness s
  else conclude (runAll (arcSegments cx cy r aStart aEnd t m) s.fb) s

end Sys2Proof.Machine
end

