-- ==== Sys2Proof/Config.lean ====
section
/-! DEFINITION. The open parameters of the spec: `GLYPH_COUNT` and `GLYPH_ROM` (00_scope.md R8, 10_state.md R29,
92_eei_decisions.md D19). Everything else the spec fixes, the sine table among it (R104). -/

namespace Sys2Proof

/-- A glyph ROM that meets the spec's constraints by construction: 1 to 224 glyphs, and bit 7 of every byte 0 (R29),
so a byte of the ROM is given by its low seven bits. -/
structure GlyphRom where
  /-- `GLYPH_COUNT` − 1, so that 1 ≤ `GLYPH_COUNT` ≤ 224 (R8). -/
  lastIndex : Fin 224
  /-- Bits 6:0 of `GLYPH_ROM[i]`. Only 0 ≤ i < 5 × `GLYPH_COUNT` is ever read (R120). -/
  bits : Nat → BitVec 7
deriving Inhabited

/-- `GLYPH_COUNT` (R8). -/
def GlyphRom.count (rom : GlyphRom) : Nat := rom.lastIndex.val + 1

/-- `GLYPH_LAST` = 0x20 + `GLYPH_COUNT` − 1, the last supported character code (R8). -/
def GlyphRom.last (rom : GlyphRom) : Nat := 0x20 + rom.count - 1

/-- `GLYPH_ROM[i]`, with bit 7 equal to 0 (R29). -/
def GlyphRom.byte (rom : GlyphRom) (i : Nat) : Byte := (rom.bits i).setWidth 8

/-- The glyph ROM of the implementation. The spec leaves its size and its contents open (R8), so nothing is known of
it here but what `GlyphRom` itself says: whatever is proved holds of every font. Log entry 3. -/
opaque Config.glyphRom : GlyphRom

end Sys2Proof
end

