-- ==== Sys2Proof/Machine/Text.lean ====
section
/-! DEFINITION. The text commands (43_text.md): the glyph lookup R120, PUTC R122 to R124, the cursor setters R125 and
R126, PUTCAT R130 and R131. -/

namespace Sys2Proof.Machine

/-- `GlyphBytes(c)` (R120): the five column bytes of a glyph, or none for a code outside 0x20 … `GLYPH_LAST`. -/
def glyphBytes (rom : GlyphRom) (c : Byte) : Option (List Byte) :=
  if c.toNat < 0x20 ∨ c.toNat > rom.last then none
  else
    let base := 5 * (c.toNat - 0x20)
    some [rom.byte base, rom.byte (base + 1), rom.byte (base + 2), rom.byte (base + 3), rom.byte (base + 4)]

/-! ## Sequential mode -/

/-- `CUR_PAGE` with the page limit 8 taken to page 0 (R123, R124). -/
def normalisePage (page : Nat) : Nat := if page = 8 then 0 else page

/-- `LineFeed()` (R123): zero the current page from `CUR_COL` to its last column, go to the next page, column 0. A page
above 7 after the normalisation does not exist (R42), so there is none to pad. -/
def lineFeed (s : State) : Except Fault State :=
  let page := normalisePage s.curPage.toNat
  if page < 8 then
    match zeroSpan page s.curCol.toNat (128 - s.curCol.toNat) s.fb with
    | .ok fb => .ok { s with fb := fb, curPage := BitVec.ofNat 4 (page + 1), curCol := 0 }
    | .error f => .error f
  else .error (.noSuchCell page s.curCol.toNat)

/-- A glyph at `col` would exceed the usable width 126 (R124). -/
abbrev exceedsWidth (col : Nat) : Prop := col + 5 > 126

/-- The page and column at which the next glyph is drawn: the cursor after the wraps of `PutGlyph` (R124). -/
def glyphCursor (page col : Nat) : Nat × Nat :=
  if exceedsWidth col then (normalisePage (normalisePage page + 1), 0) else (normalisePage page, col)

/-- `PutGlyph(g)` (R124): OR the glyph at the cursor, after the wraps, and advance the column by 6. -/
def putGlyph (g : List Byte) (s : State) : Except Fault State :=
  let spot := glyphCursor s.curPage.toNat s.curCol.toNat
  match orBlit spot.1 spot.2 g s.fb with
  | .ok fb => .ok { s with fb := fb, curPage := BitVec.ofNat 4 spot.1, curCol := BitVec.ofNat 8 (spot.2 + 6) }
  | .error f => .error f

/-- PUTC with a given glyph ROM (R122): `RET <- c` in every case, the lookup before the cursor is touched. -/
def putcWith (rom : GlyphRom) (c : Byte) (s : State) : Host.Outcome State Fault Refusal :=
  if c = 0x0A then deliver (lineFeed { s with ret := c })
  else
    match glyphBytes rom c with
    | none => raise .unsupportedCharacter { s with ret := c }
    | some g => deliver (putGlyph g { s with ret := c })

/-- PUTC (R122). -/
def execPutc (c : Byte) (s : State) : Host.Outcome State Fault Refusal := putcWith Config.glyphRom c s

/-! ## Cursor setters -/

/-- SETPG (R125). -/
def execSetpg (p : Byte) (s : State) : Host.Outcome State Fault Refusal :=
  if p.toNat ≥ 8 then raise .outOfRangePage s
  else .next ({ s with curPage := p.setWidth 4 }.finish .ok)

/-- SETCOL (R126): `c + 5` does not wrap. -/
def execSetcol (c : Byte) (s : State) : Host.Outcome State Fault Refusal :=
  if c.toNat + 5 < 126 then .next ({ s with curCol := c }.finish .ok)
  else raise .outOfRangeCol s

/-! ## Positional mode -/

/-- The part of a glyph byte that stays in the target page (R130): bits pushed past bit 7 are dropped. -/
def stayByte (shift : Nat) (v : Byte) : Byte := v <<< shift

/-- The spill byte, the part that falls into the next page (R130, R131). -/
def spillByte (shift : Nat) (v : Byte) : Byte := v >>> (8 - shift)

/-- One glyph column of PUTCAT (R130): OR the byte into the target page and, when the shift is not 0, its spill into
the next page. With shift 0 the second access is not performed (R131). -/
def shiftCell (page shift col : Nat) (v : Byte) (fb : Memory) : Except Fault Memory :=
  match orCell page col (stayByte shift v) fb with
  | .ok fb' => if shift ≠ 0 then orCell (page + 1) col (spillByte shift v) fb' else .ok fb'
  | .error f => .error f

/-- The glyph columns of PUTCAT, left to right (R130). -/
def shiftBlit (page shift : Nat) : Nat → List Byte → Memory → Except Fault Memory
  | _, [], fb => .ok fb
  | col, v :: vs, fb =>
    match shiftCell page shift col v fb with
    | .ok fb' => shiftBlit page shift (col + 1) vs fb'
    | .error f => .error f

/-- PUTCAT with a given glyph ROM (R130): row bound, column bound, character; the cursor and `RET` are neither read nor
written (R132). -/
def putcatWith (rom : GlyphRom) (row col c : Byte) (s : State) : Host.Outcome State Fault Refusal :=
  if row.toNat + 7 ≥ 64 then raise .outOfRangeRow s
  else if col.toNat + 5 ≥ 126 then raise .outOfRangeCol s
  else
    match glyphBytes rom c with
    | none => raise .unsupportedCharacter s
    | some g =>
      match shiftBlit (row.toNat / 8) (row.toNat % 8) col.toNat g s.fb with
      | .ok fb => deliver (.ok { s with fb := fb })
      | .error f => deliver (.error f)

/-- PUTCAT (R130). -/
def execPutcat (row col c : Byte) (s : State) : Host.Outcome State Fault Refusal :=
  putcatWith Config.glyphRom row col c s

end Sys2Proof.Machine
end

