-- ==== Sys2Proof/Machine/Dispatch.lean ====
section
/-! DEFINITION. One arm for each constructor of `Instr`, each one direct call of the command's meaning. -/

namespace Sys2Proof.Machine

/-- The execution of one command to completion (R9, R52). -/
def exec (i : Instr) (s : State) : Host.Outcome State Fault Refusal :=
  match i with
  | .pix row col m => Sys2Proof.Machine.execPix row col m s
  | .point row col t m => Sys2Proof.Machine.execPoint row col t m s
  | .hline colA colB row t m => Sys2Proof.Machine.execHline colA colB row t m s
  | .vline col rowA rowB t m => Sys2Proof.Machine.execVline col rowA rowB t m s
  | .line x1 y1 x2 y2 t m => Sys2Proof.Machine.execLine x1 y1 x2 y2 t m s
  | .rect x1 y1 x2 y2 t m => Sys2Proof.Machine.execRect x1 y1 x2 y2 t m s
  | .arc cx cy r aStart aEnd t m => Sys2Proof.Machine.execArc cx cy r aStart aEnd t m s
  | .putc c => Sys2Proof.Machine.execPutc c s
  | .setpg p => Sys2Proof.Machine.execSetpg p s
  | .setcol c => Sys2Proof.Machine.execSetcol c s
  | .putcat row col c => Sys2Proof.Machine.execPutcat row col c s

end Sys2Proof.Machine
end

