-- ==== Sys2Proof/Machine/Port.lean ====
section
/-! DEFINITION. The three ports (00_scope.md R9): what CORE does with one transaction that the host has presented. -/

namespace Sys2Proof.Machine

/-- A command issue (R9): decode the word and run the command to completion; an illegal word changes no state except
`ERR <- 7` (R64, R66). -/
def runCommand (w : CommandWord) (s : State) : Host.Outcome State Fault Refusal :=
  match decode w with
  | .ok i => exec i s
  | .error _ => illegalCommand s

/-- One transaction (R9, R170). -/
def serve (q : Request) (s : State) : Host.Outcome State Fault Refusal :=
  match q with
  | .command w => runCommand w s
  | .regRead n => .next (s.reply (regRead n s))
  | .fbRead a => .next (s.reply (fbRead a s))
  | .reset => .next s.coreReset

/-- The next transaction of the host, in the order of issue, and the state in which it is accepted (R21, R53). -/
def nextRequest (s : State) : Option (Request × State) :=
  match s.requests with
  | [] => none
  | q :: rest => some (q, { s with requests := rest })

/-- The word of an opcode-table row as a command word; the bits above `nbits` are 0. -/
def tableWord (nbits w : Nat) : CommandWord := BitVec.ofNat 64 (w % 2 ^ nbits)

/-- A command word presented as the host's next transaction. -/
def present (w : CommandWord) (s : State) : State := { s with requests := .command w :: s.requests }

end Sys2Proof.Machine
end

