-- ==== Sys2Proof/Machine/Step.lean ====
section
/-! DEFINITION. One step of the machine: one transaction, accepted and completed (00_scope.md R9, 20_memory.md R52). -/

namespace Sys2Proof.Machine

/-- One step: the host's next transaction runs to completion. With none presented CORE is idle and nothing changes. -/
def step (s : State) : Host.Outcome State Fault Refusal :=
  match nextRequest s with
  | some (q, s') => serve q s'
  | none => .next s

/-- The state in which the given word is the host's next transaction. -/
def State.withFetchWord (s : State) (nbits w : Nat) : State := present (tableWord nbits w) s

end Sys2Proof.Machine
end

