-- ==== Sys2Proof/Machine/Asm.lean ====
section
/-! DEFINITION. The textual form of commands (30_encoding.md R70) and its pseudo-commands (R71): from a line of source
text to a written command, and from there to its word. It is the notation of the spec's programs, not hardware. What R70
and R71 leave open of it is the model's choice, log entry 12. -/

namespace Sys2Proof

/-- The pieces of a source line. -/
inductive Token where
  | word (text : List Char)
  | quoted (c : Char)
  | comma
  | openParen
  | closeParen
deriving DecidableEq, Repr

/-- The quotation mark around a character operand. -/
def quoteMark : Char := Char.ofNat 39

/-- The word read so far (its characters in reverse), as a token if there is one. -/
def flushWord : List Char → List Token
  | [] => []
  | cs => [.word cs.reverse]

/-- The character operand that starts at `c`: any one character between two quotation marks (R70). -/
def quotedAt (c : Char) (rest : List Char) : Option Char :=
  match rest with
  | x :: q :: _ => if c = quoteMark ∧ q = quoteMark then some x else none
  | _ => none

/-- The tokens of a line after skipping `n` characters, given the word read so far in reverse. A `;` outside a quoted
character starts a comment (R70). -/
def lexFrom : Nat → List Char → List Char → List Token
  | _, cur, [] => flushWord cur
  | n + 1, cur, _ :: rest => lexFrom n cur rest
  | 0, cur, c :: rest =>
    match quotedAt c rest with
    | some x => flushWord cur ++ .quoted x :: lexFrom 2 [] rest
    | none =>
      if c = ';' then flushWord cur
      else if c = ' ' ∨ c = '\t' ∨ c = '\r' then flushWord cur ++ lexFrom 0 [] rest
      else if c = ',' then flushWord cur ++ .comma :: lexFrom 0 [] rest
      else if c = '(' then flushWord cur ++ .openParen :: lexFrom 0 [] rest
      else if c = ')' then flushWord cur ++ .closeParen :: lexFrom 0 [] rest
      else lexFrom 0 (c :: cur) rest

/-- The value of a digit of the given base, 10 or 16. -/
def digitOf (base : Nat) (c : Char) : Option Nat :=
  let n := c.toNat
  let v :=
    if '0'.toNat ≤ n ∧ n ≤ '9'.toNat then n - '0'.toNat
    else if 'A'.toNat ≤ n ∧ n ≤ 'F'.toNat then n - 'A'.toNat + 10
    else if 'a'.toNat ≤ n ∧ n ≤ 'f'.toNat then n - 'a'.toNat + 10
    else base
  if v < base then some v else none

/-- A non-empty digit string of the given base, after the value read so far. -/
def digitsOf (base : Nat) : Nat → List Char → Option Nat
  | acc, [] => some acc
  | acc, c :: cs => (digitOf base c).bind fun d => digitsOf base (acc * base + d) cs

/-- A decimal number, or a hexadecimal number with the prefix `0x` (R70). -/
def numberOf : List Char → Option Nat
  | [] => none
  | '0' :: 'x' :: c :: cs => digitsOf 16 0 (c :: cs)
  | cs => digitsOf 10 0 cs

/-- An operand (R70, R71): a number, a quoted character, `S` or `C` for the mode bytes, or `deg(d)`. DESIGN CHOICE, log
entry 12: the spec does not say whether `S`, `C` and `deg(d)` may stand for an operand that is no mode or no angle; they
are accepted for every operand, and stand for the same number everywhere. -/
def operandOf : List Token → Option Nat
  | [.quoted c] => some c.toNat
  | [.word ['S']] => some 0x73
  | [.word ['C']] => some 0x63
  | [.word cs] => numberOf cs
  | [.word ['d', 'e', 'g'], .openParen, .word cs, .closeParen] => (numberOf cs).map degrees
  | _ => none

/-- The pieces between the commas of a token list. -/
def splitAtCommas : List Token → List (List Token)
  | [] => [[]]
  | .comma :: ts => [] :: splitAtCommas ts
  | t :: ts =>
    match splitAtCommas ts with
    | [] => [[t]]
    | g :: gs => (t :: g) :: gs

/-- The operands after the mnemonic: none at all, or operands separated by commas (R70). -/
def operandsOf : List Token → Option (List Nat)
  | [] => some []
  | ts => (splitAtCommas ts).mapM operandOf

/-- The command a written name stands for: a mnemonic of R63, or a pseudo-command of R71, which expands to exactly one
command. -/
def expand : List Char → List Nat → Option SourceCommand
  | ['P', 'I', 'X'], ops => some ⟨.pix, ops⟩
  | ['P', 'O', 'I', 'N', 'T'], ops => some ⟨.point, ops⟩
  | ['H', 'L', 'I', 'N', 'E'], ops => some ⟨.hline, ops⟩
  | ['V', 'L', 'I', 'N', 'E'], ops => some ⟨.vline, ops⟩
  | ['L', 'I', 'N', 'E'], ops => some ⟨.line, ops⟩
  | ['R', 'E', 'C', 'T'], ops => some ⟨.rect, ops⟩
  | ['A', 'R', 'C'], ops => some ⟨.arc, ops⟩
  | ['P', 'U', 'T', 'C'], ops => some ⟨.putc, ops⟩
  | ['S', 'E', 'T', 'P', 'G'], ops => some ⟨.setpg, ops⟩
  | ['S', 'E', 'T', 'C', 'O', 'L'], ops => some ⟨.setcol, ops⟩
  | ['P', 'U', 'T', 'C', 'A', 'T'], ops => some ⟨.putcat, ops⟩
  | ['C', 'I', 'R', 'C', 'L', 'E'], [cx, cy, r, t, m] => some ⟨.arc, [cx, cy, r, 0, 0, t, m]⟩
  | ['C', 'L', 'R', 'P', 'I', 'X'], [row, col] => some ⟨.pix, [row, col, 0x63]⟩
  | ['S', 'E', 'T', 'P', 'I', 'X'], [row, col] => some ⟨.pix, [row, col, 0x73]⟩
  | ['N', 'E', 'W', 'L', 'I', 'N', 'E'], [] => some ⟨.putc, [0x0A]⟩
  | _, _ => none

/-- The words of one source line: none for a blank line or a comment, else the one word of its command (R70). A line
that is not of the form, or whose command is not well formed, has no answer. -/
def assembleLine (line : List Char) : Option (List CommandWord) :=
  match lexFrom 0 [] line with
  | [] => some []
  | .word name :: ts =>
    (operandsOf ts).bind fun ops => (expand name ops).bind fun c => c.word.map fun w => [w]
  | _ => none

/-- The words of a program, one command per line (R70). -/
def assembleLines (lines : List (List Char)) : Option (List CommandWord) :=
  (lines.mapM assembleLine).map List.flatten

end Sys2Proof
end

