-- ==== Sys2Proof/Safety.lean ====
section
/-! DEFINITION. What holds of CORE in every state reachable from reset (10_state.md R31), and what a safe step is. -/

namespace Sys2Proof.Machine

/-- The invariants of R31 (a) to (d), and the canonical form of the framebuffer. -/
structure State.Inv (s : State) : Prop where
  /-- R31 (a). -/
  page : s.curPage.toNat ≤ 8
  /-- R31 (b). -/
  col : s.curCol.toNat ≤ 127
  /-- R31 (c). -/
  limit : s.curPage.toNat = 8 → s.curCol.toNat ≤ 120
  /-- R31 (d). -/
  err : s.err.toNat ≤ 7
  /-- Equal framebuffer contents are equal lists, and every listed cell exists (R42). -/
  memory : s.fb.wf = true

/-- A step that goes on: neither a fault nor a refusal (R151). -/
def State.Proceeds (s : State) : Prop := ∃ t, step s = .next t

/-- The states reachable from reset when the host presents the transactions `qs` in order (R21, R31). -/
def State.ReachedBy (qs : List Request) (s : State) : Prop :=
  ∃ n, Sys2Proof.core.run n { State.reset with requests := qs } = .next s

/-- The pixels of the display that a list of points names are stored to, and nothing else: `t` is `s` after the points of
`ps` were given the value of mode `m` and the command ended with the code `e`. The stored bytes are those at
`(pixelAddr row col).addr` of the points of `ps` that lie on the display. -/
structure Painted (m : Mode) (ps : List Point) (e : ErrCode) (s t : State) : Prop where
  /-- Each pixel of the display that is in the list has the mode's value, every other pixel its old value. -/
  pixels : ∀ r c : Nat, r < 64 → c < 128 →
    t.fb.pixel r c = if (⟨r, c⟩ : Point) ∈ ps then m.bit else s.fb.pixel r c
  /-- Every byte outside the stored ones reads as before. -/
  bytes : ∀ a : Nat, (∀ p ∈ ps, p.onDisplay = true → a ≠ (pixelAddr p.row.toNat p.col.toNat).addr.toNat) →
    t.fb.read a = s.fb.read a
  /-- Nothing but the framebuffer and `ERR` changes. -/
  rest : t = { s with fb := t.fb, err := e.toByte }

/-- The points a drawing command paints: the cluster of each point, in order (R83). -/
def clusters (t : Byte) (ps : List Point) : List Point := ps.flatMap (cluster t)

/-- `n` is the number of steps along the minor axis that a line has taken before it draws its point `k`, counted from 0,
when the distances of its endpoints are `major` ≥ `minor`: the least number that keeps the error accumulator of R94 from
being negative. It starts at `major / 2`, loses `minor` for each point and gains `major` for each step. -/
def IsMinorSteps (major minor k n : Nat) : Prop :=
  (0 : Int) ≤ (major / 2 : Nat) - k * minor + n * major ∧
    ∀ j < n, ((major / 2 : Nat) : Int) - k * minor + j * major < 0

/-- The mode byte is one of the two recognised values (R68). -/
def validMode (m : Byte) : Bool := decide (m = 0x73) || decide (m = 0x63)

end Sys2Proof.Machine
end

