-- ==== Sys2Proof/Certificates/Slice0/Obligations.lean ====
section
/-! DEFINITION. The statements about CORE, taken from the numbered rules of the spec: encoding, ports and reset, the
invariants of R31, whole-machine rules, and for each command what it paints or writes, what it leaves unchanged, and
the order in which its checks are reported. -/

open Sys2Proof Sys2Proof.Machine

/-! ## Encoding -/

/-- A few words written out from the encoding table (R60, R63) and the ignored bytes of R65. -/
def Obligations.PublishedWordsDecode : Prop :=
  decode 0x0073003F7F080006 = .ok (.rect 0 8 127 63 0 0x73) ∧
  decode 0xFFFFFFFF73050901 = .ok (.pix 9 5 0x73) ∧
  decode 0x73000000030A0A07 = .ok (.arc 10 10 3 0 0 0 0x73) ∧
  decode 0x00000000410A030B = .ok (.putcat 3 10 0x41) ∧
  decode 0x000000000000780A = .ok (.setcol 120)

/-- Decoding the word of a well-formed command, or its eight bytes as a byte-serial host sends them, gives the command
back, with every operand at every value (R60 to R64). -/
def Obligations.DecodeInvertsEncode : Prop :=
  ∀ i : Instr, i.wellFormed = true →
    decode (encode i) = .ok i ∧ decodeBytes (bytesOfWord (encode i)) = .ok (i, [])

/-- A word decodes to a command exactly when the opcode byte and the operand bytes of the command's format are those of
the command's own word: no bit of those is dropped and no other bit is looked at (R61, R63). So, R65, operand bytes
beyond the format may hold any value and change neither the effect nor `ERR`, and the assembler writes them as 0x00. -/
def Obligations.DecodeReadsExactlyTheUsedBytes : Prop :=
  (∀ (w : CommandWord) (i : Instr), decode w = .ok i ↔ w &&& i.usedMask = encode i) ∧
  (∀ (w w' : CommandWord) (i : Instr), decode w = .ok i → w &&& i.usedMask = w' &&& i.usedMask →
    ∀ s, runCommand w' s = runCommand w s) ∧
  ∀ i : Instr, encode i &&& ~~~ i.usedMask = 0

/-- R64: decoding is total and looks at the opcode byte only to choose the command, whose operands are the bytes its
format names. -/
def Obligations.OpcodeByteDecides : Prop :=
  ∀ w : CommandWord,
    (1 ≤ (byteField w 0).toNat ∧ (byteField w 0).toNat ≤ 11 →
      ∃ i, decode w = .ok i ∧ i.mnemonic.opcode = byteField w 0 ∧
        i.operandBytes = (List.range i.mnemonic.arity).map fun k => byteField w (k + 1)) ∧
    ((byteField w 0).toNat = 0 ∨ 12 ≤ (byteField w 0).toNat →
      decode w = .error (.illegalOpcode (byteField w 0)))

/-- R56: byte k of a word is its bits [8k+7 : 8k], a byte-serial host sends byte 0 first, and the eight bytes it sends
are read back as the same word, the rest of the stream untouched. -/
def Obligations.ByteSerialWordsAreReadBack : Prop :=
  ∀ (w : CommandWord) (rest : List Byte),
    packBytes (bytesOfWord w) = w ∧
    (∀ k < 8, (bytesOfWord w)[k]? = some (w.extractLsb' (8 * k) 8)) ∧
    decodeBytes (bytesOfWord w ++ rest) =
      match decode w with
      | .ok i => .ok (i, rest)
      | .error e => .error e

/-- A written command has a word exactly when it is well formed, and that word decodes to a command whose written form
it is (R61, R62, R70). -/
def Obligations.AssembledWordsDecodeToTheirSource : Prop :=
  ∀ c : SourceCommand,
    (c.wellFormed = true ↔ ∃ w, c.word = some w) ∧
    ∀ w, c.word = some w → ∃ i, decode w = .ok i ∧ i.source = c ∧ encode i = w

/-- The example of R70, each pseudo-command and the angle examples of R71, as text. That a line with only a comment
gives no word and no error is the model's choice (log entry 12): R70 says only that `;` starts a comment. -/
def Obligations.SourceTextAssembles : Prop :=
  assembleLine "RECT 0, 8, 127, 63, 0, S ; border".toList = some [0x0073003F7F080006] ∧
  assembleLine "CIRCLE 2, 2, 3, 0, S".toList = some [encode (.circle 2 2 3 0 0x73)] ∧
  assembleLine "CLRPIX 3, 5".toList = some [encode (.clrPix 3 5)] ∧
  assembleLine "SETPIX 3, 5".toList = some [encode (.setPix 3 5)] ∧
  assembleLine "NEWLINE".toList = some [encode .newline] ∧
  assembleLine "PUTC 'A'".toList = some [0x0000000000004108] ∧
  assembleLine "ARC 1, 2, 3, deg(90), deg(360), 0, C".toList = some [encode (.arc 1 2 3 64 0 0 0x63)] ∧
  assembleLine "; only a comment".toList = some [] ∧
  [90, 45, 180, 360, 10].map degrees = [64, 32, 128, 0, 7]

/-! ## Ports, reset, and the step -/

/-- When the word presented decodes to a command, the step is that command's execution, the transaction accepted; the
same of a word placed by `State.withFetchWord`. -/
def Obligations.StepRunsTheDecodedCommand : Prop :=
  (∀ (s : State) (w : CommandWord) (rest : List Request) (i : Instr),
    s.requests = .command w :: rest → decode w = .ok i → i.wellFormed = true →
      step s = exec i { s with requests := rest }) ∧
  ∀ (s : State) (nbits w : Nat) (i : Instr), decodeTableWord nbits w = some i →
    step (s.withFetchWord nbits w) = exec i s

/-- R66: an illegal command, the all-zero word among them, changes no state except `ERR <- 7`. -/
def Obligations.IllegalCommandsOnlyWriteErr : Prop :=
  (∀ (s : State) (w : CommandWord) (rest : List Request), s.requests = .command w :: rest →
    (byteField w 0).toNat = 0 ∨ 12 ≤ (byteField w 0).toNat →
      step s = .next { s with requests := rest, err := 7 }) ∧
  byteField 0 0 = 0

/-- R140, R141: a register read returns the register's value zero-extended to 8 bits and changes no state of CORE. -/
def Obligations.RegReadReturnsItsRegister : Prop :=
  ∀ (s : State) (n : RegNum) (rest : List Request), s.requests = .regRead n :: rest →
    ∃ v : Byte, step s = .next { s with requests := rest, replies := s.replies ++ [v] } ∧
      (n = 0 → v.toNat = s.err.toNat % 8) ∧
      (n = 1 → v.toNat = s.curPage.toNat) ∧
      (n = 2 → v = s.curCol ∧ (s.curCol.toNat ≤ 127 → v.getLsbD 7 = false)) ∧
      (n = 3 → v = s.ret)

/-- R50: an export read returns the current byte of cell (a / 128, a % 128) and changes no state of CORE. R51: reading the
addresses in increasing order delivers the 1024 page bytes in page order 0 to 7, column by column, each with bit 0 the
top row of its page. -/
def Obligations.ExportReadsReturnTheFrame : Prop :=
  (∀ (s : State) (a : FbAddr) (rest : List Request), s.requests = .fbRead a :: rest →
    step s = .next { s with
      requests := rest,
      replies := s.replies ++ [s.fb.read (cellAddr (a.toNat / 128) (a.toNat % 128)).toNat] }) ∧
  ∀ s : State, (exportFrame s).length = 1024 ∧
    ∀ page col bit : Nat, page < 8 → col < 128 → bit < 8 →
      ∃ v : Byte, (exportFrame s)[page * 128 + col]? = some v ∧ v.getLsbD bit = s.fb.pixel (page * 8 + bit) col

/-- R32: what reset leaves. -/
def Obligations.ResetLeavesTheStatedValues : Prop :=
  (∀ a : FbAddr, fbRead a State.reset = 0) ∧ State.reset.curPage = 0 ∧ State.reset.curCol = 0 ∧
    State.reset.err = 0 ∧ State.reset.ret = 0

/-- R170 as an event between two transactions: the step that accepts it leaves CORE in the reset state; and a step with
no transaction presented changes nothing. That reset can be presented during a run, and that CORE can be stepped with
nothing presented, are the model's choices (log entries 5 and 1). -/
def Obligations.ResetEventAndIdleStep : Prop :=
  (∀ (s : State) (rest : List Request), s.requests = .reset :: rest →
    step s = .next { State.reset with requests := rest, replies := s.replies }) ∧
  ∀ s : State, s.requests = [] → step s = .next s

/-! ## Framebuffer -/

/-- R44: the page, bit, address and mask of a pixel, and that different pixels of the display have different homes. -/
def Obligations.PixelAddressIsPageMajor : Prop :=
  (∀ row col : Nat, row < 64 → col < 128 →
    (pixelAddr row col).page = row / 8 ∧ (pixelAddr row col).bit = row % 8 ∧
    (pixelAddr row col).page = ((BitVec.ofNat 6 row).extractLsb' 3 3).toNat ∧
    (pixelAddr row col).bit = ((BitVec.ofNat 6 row).extractLsb' 0 3).toNat ∧
    (pixelAddr row col).addr =
      ((BitVec.ofNat 6 row).extractLsb' 3 3 ++ (BitVec.ofNat 7 col).extractLsb' 0 7 : BitVec (3 + 7)) ∧
    (pixelAddr row col).addr.toNat = (pixelAddr row col).page * 128 + col ∧
    ∀ b < 8, (pixelAddr row col).mask.getLsbD b = decide (b = (pixelAddr row col).bit)) ∧
  (∀ r c r' c' : Nat, r < 64 → c < 128 → r' < 64 → c' < 128 →
    (pixelAddr r c).addr = (pixelAddr r' c').addr → (pixelAddr r c).bit = (pixelAddr r' c').bit → r = r' ∧ c = c') ∧
  pixelAddr 9 5 = { page := 1, bit := 1, addr := 133, mask := 0x02 } ∧
  pixelAddr 63 127 = { page := 7, bit := 7, addr := 1023, mask := 0x80 }

/-- Two canonical framebuffers that read alike are the same list of cells. The list of cells and its canonical form are
the model's representation of the framebuffer, not the spec's (log entry 8); of the spec it uses only that there are 1024
cells (R40, R42). -/
def Obligations.CanonicalMemoryIsDeterminedByItsReads : Prop :=
  ∀ m m' : Memory, m.wf = true → m'.wf = true → (∀ a < 1024, m.read a = m'.read a) → m = m'

/-! ## Invariants -/

/-- The invariants of R31 (a) to (d), and the canonical form of the model's framebuffer list (log entry 8), hold after
reset. -/
def Obligations.ResetMeetsTheInvariants : Prop := State.reset.Inv

/-- Every step keeps the invariants of R31 (a) to (d) and the canonical form of the framebuffer, which is the model's
representation (log entry 8). -/
def Obligations.StepKeepsTheInvariants : Prop :=
  ∀ s t : State, s.Inv → step s = .next t → t.Inv

/-- A step from a state that meets the invariants always goes on: no error stops CORE, and no access names a cell that
does not exist (R31 (e), R151). -/
def Obligations.InvariantStatesAlwaysProceed : Prop := ∀ s : State, s.Inv → s.Proceeds

/-- R31: in every state reachable from reset by any sequence of transactions the ranges (a) to (d) hold and, (e), the
next step, whatever the host presents, makes no access outside pages 0..7 and columns 0..127: the only stop of the model
is such an access (log entry 4). The framebuffer list is canonical, the model's representation (log entry 8). -/
def Obligations.ReachableStatesKeepTheirRanges : Prop :=
  ∀ (qs : List Request) (s : State), s.ReachedBy qs →
    s.curPage.toNat ≤ 8 ∧ s.curCol.toNat ≤ 127 ∧ (s.curPage.toNat = 8 → s.curCol.toNat ≤ 120) ∧ s.err.toNat ≤ 7 ∧
    s.fb.wf = true ∧ ∀ more : List Request, { s with requests := more }.Proceeds

/-! ## Whole-machine rules -/

/-- Who writes the cursor and `RET`: the page is written by PUTC and SETPG only, the column by PUTC and SETCOL only,
`RET` by PUTC only, which leaves its operand there. No command touches the host's side. -/
def Obligations.RegistersHaveOnlyTheirWriters : Prop :=
  ∀ (i : Instr) (s t : State), exec i s = .next t →
    ((∀ c, i ≠ .putc c) → (∀ p, i ≠ .setpg p) → t.curPage = s.curPage) ∧
    ((∀ c, i ≠ .putc c) → (∀ c, i ≠ .setcol c) → t.curCol = s.curCol) ∧
    ((∀ c, i ≠ .putc c) → t.ret = s.ret) ∧
    (∀ c, i = .putc c → t.ret = c) ∧
    t.requests = s.requests ∧ t.replies = s.replies

/-- No command reads `ERR`, which every command writes: whatever it holds, the command answers the same (R26). No command
reads `RET` (R27): PUTC, which overwrites it, answers the same whatever it holds, and every other command run with another
`RET` does the same and leaves that as it was. Only PUTC reads the cursor (R24, R25): every other command run with another
cursor does the same and leaves that as it was, but for the cursor register that a successful SETPG or SETCOL
overwrites. -/
def Obligations.RegistersHaveOnlyTheirReaders : Prop :=
  (∀ (i : Instr) (s : State) (v : Byte), exec i { s with err := v } = exec i s) ∧
  (∀ (c : Byte) (s : State) (v : Byte), exec (.putc c) { s with ret := v } = exec (.putc c) s) ∧
  (∀ (i : Instr) (s t : State) (page : BitVec 4) (col ret : Byte),
    (∀ c, i ≠ .putc c) → (∀ p, i ≠ .setpg p) → (∀ c, i ≠ .setcol c) → exec i s = .next t →
      exec i { s with curPage := page, curCol := col, ret := ret } =
        .next { t with curPage := page, curCol := col, ret := ret }) ∧
  (∀ (p : Byte) (s t : State) (page : BitVec 4) (col ret : Byte), exec (.setpg p) s = .next t →
    exec (.setpg p) { s with curPage := page, curCol := col, ret := ret } =
      .next { t with curPage := if t.err = 0 then t.curPage else page, curCol := col, ret := ret }) ∧
  ∀ (c : Byte) (s t : State) (page : BitVec 4) (col ret : Byte), exec (.setcol c) s = .next t →
    exec (.setcol c) { s with curPage := page, curCol := col, ret := ret } =
      .next { t with curPage := page, curCol := if t.err = 0 then t.curCol else col, ret := ret }

/-- The framebuffer decides nothing but framebuffer contents: with other contents a command ends with the same code,
cursor and `RET`. -/
def Obligations.FramebufferNeverDecidesAnOutcome : Prop :=
  ∀ (i : Instr) (s t : State) (fb : Memory), exec i s = .next t →
    ∃ fb', exec i { s with fb := fb } = .next { t with fb := fb' }

/-- A failed simple command changes nothing but `ERR`, and `RET` for PUTC. RECT and ARC are composites and are not
covered. -/
def Obligations.FailedSimpleCommandsHaveNoEffect : Prop :=
  ∀ (i : Instr) (s t : State), i.mnemonic ≠ .rect → i.mnemonic ≠ .arc → exec i s = .next t → t.err ≠ 0 →
    t = { s with err := t.err, ret := t.ret } ∧ (i.mnemonic ≠ .putc → t.ret = s.ret)

/-- Repeating a drawing command or PUTCAT leaves the state as its first execution left it. The
premise on the framebuffer is the canonical form of the model's list (log entry 8). -/
def Obligations.DrawingIsIdempotent : Prop :=
  ∀ (i : Instr) (s t : State), s.fb.wf = true → i.mnemonic ≠ .putc → exec i s = .next t → exec i t = .next t

/-! ## PIX and POINT -/

/-- R81: with a valid mode and a pixel on the display, PIX completes, gives that pixel the mode's value, and changes no
other pixel, no other byte, and no register but `ERR`, which is 0. -/
def Obligations.PixPaintsItsPixel : Prop :=
  ∀ (row col m : Byte) (s : State), validMode m = true → row.toNat < 64 → col.toNat < 128 →
    ∃ t, exec (.pix row col m) s = .next t ∧
      Painted (modeOf m) [{ row := operand row, col := operand col }] .ok s t

/-- Pixel clear correctness: Set then Clear of one pixel leaves it cleared and every other pixel, those of the same page
byte among them, as it was. -/
def Obligations.SetThenClearChangesOnePixel : Prop :=
  ∀ (row col : Byte) (s : State), row.toNat < 64 → col.toNat < 128 →
    ∃ t u, exec (.setPix row col) s = .next t ∧ exec (.clrPix row col) t = .next u ∧
      t.fb.pixel row.toNat col.toNat = true ∧
      ∀ r c : Nat, r < 64 → c < 128 →
        u.fb.pixel r c = if r = row.toNat ∧ c = col.toNat then false else s.fb.pixel r c

/-- R82: with thickness 0 or 1, a valid mode and a centre on the display, POINT completes and paints its cluster. -/
def Obligations.PointPaintsItsCluster : Prop :=
  ∀ (row col t m : Byte) (s : State), t.toNat ≤ 1 → validMode m = true → row.toNat < 64 → col.toNat < 128 →
    ∃ u, exec (.point row col t m) s = .next u ∧
      Painted (modeOf m) (cluster t { row := operand row, col := operand col }) .ok s u

/-- R83: of the pixels of the display, the cluster of a point holds exactly those at distance at most one along one axis
for thickness 1, and the point alone for thickness 0: at the edges neighbours are skipped, never wrapped. -/
def Obligations.ClusterIsAPlusClippedToTheDisplay : Prop :=
  (∀ p q : Point, p.onDisplay = true → q.onDisplay = true →
    (q ∈ cluster 1 p ↔ (q.row - p.row).natAbs + (q.col - p.col).natAbs ≤ 1)) ∧
  ∀ p : Point, cluster 0 p = [p]

/-- PIX checks mode, row, column, and POINT thickness, mode, row, column, in that order (R154); a failing check leaves
everything but `ERR` unchanged, and a centre off the display draws nothing at all. -/
def Obligations.PixAndPointReportTheirFirstFailingCheck : Prop :=
  ∀ (row col t m : Byte) (s : State) (e : Byte), e ≠ 0 →
    (e = (if validMode m = false then 4 else if 64 ≤ row.toNat then 1 else if 128 ≤ col.toNat then 2 else 0) →
      exec (.pix row col m) s = .next { s with err := e }) ∧
    (e = (if 1 < t.toNat then 5 else if validMode m = false then 4 else if 64 ≤ row.toNat then 1
        else if 128 ≤ col.toNat then 2 else 0) →
      exec (.point row col t m) s = .next { s with err := e })

/-! ## HLINE, VLINE, LINE -/

/-- R91: HLINE completes and paints the cluster of every column from the smaller to the larger operand. -/
def Obligations.HlinePaintsItsSpan : Prop :=
  ∀ (colA colB row t m : Byte) (s : State), t.toNat ≤ 1 → validMode m = true →
    row.toNat < 64 → colA.toNat < 128 → colB.toNat < 128 →
    ∃ u, exec (.hline colA colB row t m) s = .next u ∧
      Painted (modeOf m) (clusters t (hLinePoints (operand colA) (operand colB) (operand row))) .ok s u ∧
      ∀ p : Point, p ∈ hLinePoints (operand colA) (operand colB) (operand row) ↔
        p.row = (row.toNat : Int) ∧ ((min colA.toNat colB.toNat : Nat) : Int) ≤ p.col ∧
          p.col ≤ ((max colA.toNat colB.toNat : Nat) : Int)

/-- R92: VLINE completes and paints the cluster of every row from the smaller to the larger operand. -/
def Obligations.VlinePaintsItsSpan : Prop :=
  ∀ (col rowA rowB t m : Byte) (s : State), t.toNat ≤ 1 → validMode m = true →
    col.toNat < 128 → rowA.toNat < 64 → rowB.toNat < 64 →
    ∃ u, exec (.vline col rowA rowB t m) s = .next u ∧
      Painted (modeOf m) (clusters t (vLinePoints (operand col) (operand rowA) (operand rowB))) .ok s u ∧
      ∀ p : Point, p ∈ vLinePoints (operand col) (operand rowA) (operand rowB) ↔
        p.col = (col.toNat : Int) ∧ ((min rowA.toNat rowB.toNat : Nat) : Int) ≤ p.row ∧
          p.row ≤ ((max rowA.toNat rowB.toNat : Nat) : Int)

/-- R93: LINE completes and paints the cluster of every point of the walk of R94. -/
def Obligations.LinePaintsItsWalk : Prop :=
  ∀ (x1 y1 x2 y2 t m : Byte) (s : State), t.toNat ≤ 1 → validMode m = true →
    x1.toNat < 128 → y1.toNat < 64 → x2.toNat < 128 → y2.toNat < 64 →
    ∃ u, exec (.line x1 y1 x2 y2 t m) s = .next u ∧
      Painted (modeOf m) (clusters t (linePoints (operand x1) (operand y1) (operand x2) (operand y2))) .ok s u

/-- The order of the checks of the three line commands (R154); one endpoint off the display and nothing is drawn. -/
def Obligations.LinesReportTheirFirstFailingCheck : Prop :=
  ∀ (a b c d t m : Byte) (s : State) (e : Byte), e ≠ 0 →
    (e = (if 1 < t.toNat then 5 else if validMode m = false then 4 else if 64 ≤ c.toNat then 1
        else if 128 ≤ a.toNat then 2 else if 128 ≤ b.toNat then 2 else 0) →
      exec (.hline a b c t m) s = .next { s with err := e }) ∧
    (e = (if 1 < t.toNat then 5 else if validMode m = false then 4 else if 64 ≤ b.toNat then 1
        else if 128 ≤ a.toNat then 2 else if 64 ≤ c.toNat then 1 else 0) →
      exec (.vline a b c t m) s = .next { s with err := e }) ∧
    (e = (if 1 < t.toNat then 5 else if validMode m = false then 4 else if 64 ≤ b.toNat then 1
        else if 128 ≤ a.toNat then 2 else if 64 ≤ d.toNat then 1 else if 128 ≤ c.toNat then 2 else 0) →
      exec (.line a b c d t m) s = .next { s with err := e })

/-- R96 (a), R95: the walk of `Line` begins at one endpoint and ends at the other, whatever the two points are. -/
def Obligations.LineWalkJoinsItsEndpoints : Prop :=
  ∀ x1 y1 x2 y2 : Int,
    ((linePoints x1 y1 x2 y2).head? = some { row := y1, col := x1 } ∧
      (linePoints x1 y1 x2 y2).getLast? = some { row := y2, col := x2 }) ∨
    ((linePoints x1 y1 x2 y2).head? = some { row := y2, col := x2 } ∧
      (linePoints x1 y1 x2 y2).getLast? = some { row := y1, col := x1 })

/-- R96 (d), R95: the walk has max(dx, dy) + 1 points, consecutive points differ by one step along the major axis and
zero or one along the minor axis, and every point lies in the rectangle the endpoints span. R94: point k is k steps along
the major axis from the endpoint that comes first on it, and along the minor axis as many steps toward the other endpoint
as the error accumulator, which starts at half the major distance, has called for by then. -/
def Obligations.LineWalkHasNoGaps : Prop :=
  ∀ x1 y1 x2 y2 : Int,
    (linePoints x1 y1 x2 y2).length = max (x2 - x1).natAbs (y2 - y1).natAbs + 1 ∧
    (∀ (k : Nat) (p q : Point), (linePoints x1 y1 x2 y2)[k]? = some p → (linePoints x1 y1 x2 y2)[k + 1]? = some q →
      if (y2 - y1).natAbs > (x2 - x1).natAbs then q.row = p.row + 1 ∧ (q.col - p.col).natAbs ≤ 1
      else q.col = p.col + 1 ∧ (q.row - p.row).natAbs ≤ 1) ∧
    (∀ p ∈ linePoints x1 y1 x2 y2,
      min x1 x2 ≤ p.col ∧ p.col ≤ max x1 x2 ∧ min y1 y2 ≤ p.row ∧ p.row ≤ max y1 y2) ∧
    ∀ (k : Nat) (p : Point), (linePoints x1 y1 x2 y2)[k]? = some p →
      if (y2 - y1).natAbs > (x2 - x1).natAbs then
        ∃ n, IsMinorSteps (y2 - y1).natAbs (x2 - x1).natAbs k n ∧ p.row = min y1 y2 + k ∧
          p.col = if y1 ≤ y2 then x1 + n * (x2 - x1).sign else x2 + n * (x1 - x2).sign
      else
        ∃ n, IsMinorSteps (x2 - x1).natAbs (y2 - y1).natAbs k n ∧ p.col = min x1 x2 + k ∧
          p.row = if x1 ≤ x2 then y1 + n * (y2 - y1).sign else y2 + n * (y1 - y2).sign

/-- R96 (b): a line and its reverse do the same, whenever both endpoints are on the display. -/
def Obligations.LineIsSymmetric : Prop :=
  ∀ (x1 y1 x2 y2 t m : Byte) (s : State),
    x1.toNat < 128 → y1.toNat < 64 → x2.toNat < 128 → y2.toNat < 64 →
      exec (.line x1 y1 x2 y2 t m) s = exec (.line x2 y2 x1 y1 t m) s

/-- R96 (c): a horizontal LINE is HLINE and a vertical LINE is VLINE, for all operands, failing ones included. -/
def Obligations.StraightLinesAreHlineAndVline : Prop :=
  ∀ (x1 x2 y t m : Byte) (s : State),
    exec (.line x1 y x2 y t m) s = exec (.hline x1 x2 y t m) s ∧
    exec (.line y x1 y x2 t m) s = exec (.vline y x1 x2 t m) s

/-! ## RECT -/

/-- R100: with all operands in range RECT completes and paints the clusters of its four sides, which are the border of
the rectangle its corners span and no interior point. -/
def Obligations.RectPaintsItsBorder : Prop :=
  ∀ (x1 y1 x2 y2 t m : Byte) (s : State), t.toNat ≤ 1 → validMode m = true →
    x1.toNat < 128 → y1.toNat < 64 → x2.toNat < 128 → y2.toNat < 64 →
    ∃ (u : State) (ps : List Point), exec (.rect x1 y1 x2 y2 t m) s = .next u ∧
      Painted (modeOf m) (clusters t ps) .ok s u ∧
      ∀ r c : Int, (⟨r, c⟩ : Point) ∈ ps ↔
        (((min y1.toNat y2.toNat : Nat) : Int) ≤ r ∧ r ≤ ((max y1.toNat y2.toNat : Nat) : Int) ∧
          ((min x1.toNat x2.toNat : Nat) : Int) ≤ c ∧ c ≤ ((max x1.toNat x2.toNat : Nat) : Int)) ∧
        (r = (y1.toNat : Int) ∨ r = (y2.toNat : Int) ∨ c = (x1.toNat : Int) ∨ c = (x2.toNat : Int))

/-- RECT is its four lines one after another, and `ERR` holds the code of the first that failed. -/
def Obligations.RectIsItsFourLines : Prop :=
  ∀ (x1 y1 x2 y2 t m : Byte) (s : State), ∃ a b c d : State,
    exec (.hline x1 x2 y1 t m) s = .next a ∧ exec (.hline x1 x2 y2 t m) a = .next b ∧
    exec (.vline x1 y1 y2 t m) b = .next c ∧ exec (.vline x2 y1 y2 t m) c = .next d ∧
    exec (.rect x1 y1 x2 y2 t m) s = .next { d with
      err := if a.err ≠ 0 then a.err else if b.err ≠ 0 then b.err else if c.err ≠ 0 then c.err else d.err }

/-- A rectangle with one bad coordinate is drawn in part: with y2 off the display only its top line, with x2 off the
display only its left line; with a bad thickness or mode nothing is drawn. -/
def Obligations.RectIsDrawnInPart : Prop :=
  ∀ (x1 y1 x2 y2 t m : Byte) (s : State),
    (1 < t.toNat → exec (.rect x1 y1 x2 y2 t m) s = .next { s with err := 5 }) ∧
    (t.toNat ≤ 1 → validMode m = false → exec (.rect x1 y1 x2 y2 t m) s = .next { s with err := 4 }) ∧
    (t.toNat ≤ 1 → validMode m = true → x1.toNat < 128 → y1.toNat < 64 → x2.toNat < 128 → 64 ≤ y2.toNat →
      ∃ u, exec (.rect x1 y1 x2 y2 t m) s = .next u ∧
        Painted (modeOf m) (clusters t (hLinePoints (operand x1) (operand x2) (operand y1))) .outOfRangeRow s u) ∧
    (t.toNat ≤ 1 → validMode m = true → x1.toNat < 128 → y1.toNat < 64 → y2.toNat < 64 → 128 ≤ x2.toNat →
      ∃ u, exec (.rect x1 y1 x2 y2 t m) s = .next u ∧
        Painted (modeOf m) (clusters t (vLinePoints (operand x1) (operand y1) (operand y2))) .outOfRangeCol s u)

/-! ## ARC -/

/-- R102, R103: the quadrant cases of `dsin`, its range, `dcos`, and the published values; and the 65 values of `SIN_TAB`
that R104 lists. -/
def Obligations.SineFunctionsFollowTheQuadrants : Prop :=
  (∀ i : Nat, i < 64 →
    dsin (BitVec.ofNat 8 i) = sinTab i ∧ dsin (BitVec.ofNat 8 (64 + i)) = sinTab (64 - i) ∧
    dsin (BitVec.ofNat 8 (128 + i)) = -sinTab i ∧ dsin (BitVec.ofNat 8 (192 + i)) = -sinTab (64 - i)) ∧
  (∀ a : Byte, -64 ≤ dsin a ∧ dsin a ≤ 64 ∧ dcos a = dsin (BitVec.ofNat 8 ((a.toNat + 64) % 256))) ∧
  [0, 32, 64, 96, 128, 160, 192, 224, 255].map dsin = [0, 45, 64, 45, 0, -45, -64, -45, -2] ∧
  [0, 32, 64, 128, 192, 224].map dcos = [64, 45, 0, -64, 0, 45] ∧
  (List.range 16).map sinTab = [0, 2, 3, 5, 6, 8, 9, 11, 12, 14, 16, 17, 19, 20, 22, 23] ∧
  (List.range 16).map (fun i => sinTab (16 + i)) = [24, 26, 27, 29, 30, 32, 33, 34, 36, 37, 38, 39, 41, 42, 43, 44] ∧
  (List.range 16).map (fun i => sinTab (32 + i)) = [45, 46, 47, 48, 49, 50, 51, 52, 53, 54, 55, 56, 56, 57, 58, 59] ∧
  (List.range 17).map (fun i => sinTab (48 + i)) =
    [59, 60, 60, 61, 61, 62, 62, 62, 63, 63, 63, 64, 64, 64, 64, 64, 64]

/-- R105: the sweep in both readings, integer and 8-bit, and its range. R106: the step count, its range, and the
published values. -/
def Obligations.SweepAndStepsFollowTheirFormulas : Prop :=
  (∀ a e : Byte,
    (e.toNat > a.toNat → sweep a e = e.toNat - a.toNat) ∧
    (e.toNat ≤ a.toNat → sweep a e = 256 - a.toNat + e.toNat) ∧
    1 ≤ sweep a e ∧ sweep a e ≤ 256 ∧ (sweep a e = 256 ↔ a = e) ∧ BitVec.ofNat 8 (sweep a e) = e - a) ∧
  (∀ r dw : Nat, arcSteps r dw = max 1 (r * dw * 201 / 2 ^ 14)) ∧
  (∀ r dw : Nat, r ≤ 255 → dw ≤ 256 → 1 ≤ arcSteps r dw ∧ arcSteps r dw ≤ 800) ∧
  arcSteps 3 256 = 9 ∧ arcSteps 8 256 = 25 ∧ arcSteps 3 64 = 2 ∧ arcSteps 31 256 = 97 ∧
  (∀ dw : Nat, arcSteps 0 dw = 1) ∧ arcSteps 1 81 = 1 ∧ arcSteps 255 256 = 800

/-- The last sample of an arc is at its end angle, the first at its start angle, and a full circle closes; every sample
lies within the radius of the centre along each axis (R107, R109). -/
def Obligations.ArcSamplesRunFromStartToEnd : Prop :=
  (∀ (cx cy r a e : Byte),
    arcAngle a (sweep a e) (arcSteps r.toNat (sweep a e)) 0 = a ∧
    arcAngle a (sweep a e) (arcSteps r.toNat (sweep a e)) (arcSteps r.toNat (sweep a e)) = e ∧
    (a = e →
      arcSample cx cy r a (sweep a e) (arcSteps r.toNat (sweep a e)) (arcSteps r.toNat (sweep a e)) =
        arcSample cx cy r a (sweep a e) (arcSteps r.toNat (sweep a e)) 0)) ∧
  ∀ (cx cy r a : Byte) (dw steps i : Nat),
    (cx.toNat : Int) - r.toNat ≤ (arcSample cx cy r a dw steps i).col ∧
    (arcSample cx cy r a dw steps i).col ≤ (cx.toNat : Int) + r.toNat ∧
    (cy.toNat : Int) - r.toNat ≤ (arcSample cx cy r a dw steps i).row ∧
    (arcSample cx cy r a dw steps i).row ≤ (cy.toNat : Int) + r.toNat

/-- R110: the distance of every sample from the centre is within 1.55 of the radius for r ≤ 31 and within 1.68 for
r ≤ 63, written with squares of hundredths; and the two samples by which the rule shows that 1 pixel is not met. -/
def Obligations.ArcSamplesStayNearTheCircle : Prop :=
  (∀ (cx cy r a : Byte) (dw steps i : Nat) (tol d2 : Int),
    (r.toNat ≤ 31 ∧ tol = 155) ∨ (r.toNat ≤ 63 ∧ tol = 168) →
    d2 = ((arcSample cx cy r a dw steps i).col - cx.toNat) ^ 2 + ((arcSample cx cy r a dw steps i).row - cy.toNat) ^ 2 →
      10000 * d2 ≤ (100 * r.toNat + tol) ^ 2 ∧
      (100 * r.toNat ≤ tol ∨ (100 * r.toNat - tol) ^ 2 ≤ 10000 * d2)) ∧
  (∀ cx cy : Byte, arcSample cx cy 3 160 256 9 0 = { row := cy.toNat - 3, col := cx.toNat - 3 }) ∧
  ∀ cx cy : Byte, arcSample cx cy 54 32 256 169 0 = { row := cy.toNat + 37, col := cx.toNat + 37 }

/-- R108: ARC checks its thickness before anything else, and an invalid mode makes every segment fail. -/
def Obligations.ArcRejectsThicknessThenMode : Prop :=
  ∀ (cx cy r a e t m : Byte) (s : State),
    (1 < t.toNat → exec (.arc cx cy r a e t m) s = .next { s with err := 5 }) ∧
    (t.toNat ≤ 1 → validMode m = false → exec (.arc cx cy r a e t m) s = .next { s with err := 4 })

/-- R108, R153: with thickness 0 or 1 and a valid mode ARC completes; it paints exactly the segments whose two samples
are on the display, and `ERR` holds the code of the first segment that failed, or 0. -/
def Obligations.ArcPaintsItsSegmentsOnTheDisplay : Prop :=
  ∀ (cx cy r a e t m : Byte) (s : State), t.toNat ≤ 1 → validMode m = true →
    let steps := arcSteps r.toNat (sweep a e)
    let sample := arcSample cx cy r a (sweep a e) steps
    let code := fun i => firstErr
      [checkPt (sample i).row (sample i).col, checkPt (sample (i + 1)).row (sample (i + 1)).col]
    ∃ u, exec (.arc cx cy r a e t m) s = .next u ∧
      Painted (modeOf m)
        (clusters t ((List.range steps).flatMap fun i =>
          if (sample i).onDisplay = true ∧ (sample (i + 1)).onDisplay = true then
            linePoints (sample i).col (sample i).row (sample (i + 1)).col (sample (i + 1)).row
          else []))
        (firstErr ((List.range steps).map code)) s u

/-- An arc that fits the display around its centre succeeds with `ERR` = 0, and its start and end samples are painted. -/
def Obligations.ArcThatFitsSucceeds : Prop :=
  ∀ (cx cy r a e t m : Byte) (s : State), t.toNat ≤ 1 → validMode m = true →
    r.toNat ≤ cx.toNat → cx.toNat + r.toNat < 128 → r.toNat ≤ cy.toNat → cy.toNat + r.toNat < 64 →
    ∃ u, exec (.arc cx cy r a e t m) s = .next u ∧ u.err = 0 ∧
      u.fb.pixel (cy.toNat + asr (operand r * dsin a) 6).toNat (cx.toNat + asr (operand r * dcos a) 6).toNat =
        (modeOf m).bit ∧
      u.fb.pixel (cy.toNat + asr (operand r * dsin e) 6).toNat (cx.toNat + asr (operand r * dcos e) 6).toNat =
        (modeOf m).bit

/-- R108: an arc of radius 0 is the point at its centre, for all operands. -/
def Obligations.ArcOfRadiusZeroIsAPoint : Prop :=
  ∀ (cx cy a e t m : Byte) (s : State), exec (.arc cx cy 0 a e t m) s = exec (.point cy cx t m) s

/-! ## PUTC and the cursor -/

/-- An unsupported character writes `RET` and `ERR` and nothing else (R122). -/
def Obligations.PutcOfAnUnsupportedCharacter : Prop :=
  ∀ (c : Byte) (s : State), c ≠ 0x0A → (c.toNat < 0x20 ∨ Config.glyphRom.last < c.toNat) →
    exec (.putc c) s = .next { s with ret := c, err := 6 }

/-- R123: a line-feed zeroes the page bytes of the current page from the cursor column to column 127, all of them and no
other byte, and moves the cursor to column 0 of the next page; a page counter of 8 is first taken to page 0. -/
def Obligations.LineFeedPadsThePage : Prop :=
  ∀ s : State, s.curPage.toNat ≤ 8 →
    ∃ t, exec (.putc 0x0A) s = .next t ∧
      (∀ a : Nat, t.fb.read a =
        if s.curPage.toNat % 8 * 128 + s.curCol.toNat ≤ a ∧ a ≤ s.curPage.toNat % 8 * 128 + 127 then 0
        else s.fb.read a) ∧
      t.curPage.toNat = s.curPage.toNat % 8 + 1 ∧
      t = { s with fb := t.fb, curPage := t.curPage, curCol := 0, ret := 0x0A, err := 0 }

/-- R124: a supported character is OR-ed into five consecutive columns at the cursor, after the column wrap when the
column is 122 or more and the page wrap at 8; no other byte changes, the spacer column among them, and the column
advances by 6. R120: byte k of the glyph is byte 5 × (c − 0x20) + k of the glyph ROM. -/
def Obligations.PutcDrawsItsGlyphAtTheCursor : Prop :=
  ∀ (c : Byte) (s : State), 0x20 ≤ c.toNat → c.toNat ≤ Config.glyphRom.last → s.curPage.toNat ≤ 8 →
    ∃ (t : State) (g : List Byte), glyphBytes Config.glyphRom c = some g ∧ g.length = 5 ∧
      (∀ k < 5, g[k]? = some (Config.glyphRom.byte (5 * (c.toNat - 0x20) + k))) ∧
      exec (.putc c) s = .next t ∧
      (let page := if s.curCol.toNat ≤ 121 then s.curPage.toNat % 8 else (s.curPage.toNat % 8 + 1) % 8
       let col := if s.curCol.toNat ≤ 121 then s.curCol.toNat else 0
       (glyphCursor s.curPage.toNat s.curCol.toNat = (page, col)) ∧
       (∀ a : Nat, t.fb.read a =
          if page * 128 + col ≤ a ∧ a < page * 128 + col + 5 then s.fb.read a ||| g.getD (a - (page * 128 + col)) 0
          else s.fb.read a) ∧
       t.curPage.toNat = page ∧ t.curCol.toNat = col + 6 ∧
       t = { s with fb := t.fb, curPage := t.curPage, curCol := t.curCol, ret := c, err := 0 })

/-- The model's own stop (log entry 4): where `CUR_PAGE` holds 9 to 15, values that no rule produces, a line-feed or a
supported character names a page that does not exist, and the step faults. -/
def Obligations.PutcStopsOnlyOnAPageThatDoesNotExist : Prop :=
  ∀ (c : Byte) (s : State),
    (9 ≤ s.curPage.toNat → c = 0x0A ∨ (0x20 ≤ c.toNat ∧ c.toNat ≤ Config.glyphRom.last) →
      ∃ page col, 8 < page ∧ exec (.putc c) s = .fault (.noSuchCell page col)) ∧
    (s.curPage.toNat ≤ 8 → ∃ t, exec (.putc c) s = .next t)

/-- R125: SETPG stores pages 0 to 7, and reports and ignores every other operand. -/
def Obligations.SetpgStoresPagesBelowEight : Prop :=
  (∀ (p : Byte) (s : State), p.toNat < 8 →
    ∃ t, exec (.setpg p) s = .next t ∧ t.curPage.toNat = p.toNat ∧ t = { s with curPage := t.curPage, err := 0 }) ∧
  (∀ (p : Byte) (s : State), 8 ≤ p.toNat → exec (.setpg p) s = .next { s with err := 3 }) ∧
  (∀ w : CommandWord, byteField w 0 = 0x09 → decode w = .ok (.setpg (byteField w 1))) ∧
  decode 0x0000000000000709 = .ok (.setpg 7) ∧ decode 0x0000000000000809 = .ok (.setpg 8)

/-- R126: SETCOL stores columns 0 to 120, and reports and ignores every other operand; the sum does not wrap. PUTC
still draws at column 121. -/
def Obligations.SetcolStoresColumnsUpTo120 : Prop :=
  (∀ (c : Byte) (s : State), c.toNat ≤ 120 → exec (.setcol c) s = .next { s with curCol := c, err := 0 }) ∧
  (∀ (c : Byte) (s : State), 121 ≤ c.toNat → exec (.setcol c) s = .next { s with err := 2 }) ∧
  (∀ w : CommandWord, byteField w 0 = 0x0A → decode w = .ok (.setcol (byteField w 1))) ∧
  decode 0x000000000000780A = .ok (.setcol 120) ∧
  ∀ page : Nat, (glyphCursor page 121).2 = 121

/-! ## PUTCAT -/

/-- R130: with the corner in range and a supported character PUTCAT completes; each glyph byte, shifted left by row % 8,
is OR-ed into page row / 8, its spill into the next page when the shift is not 0, and nothing else changes but `ERR`. -/
def Obligations.PutcatDrawsItsShiftedGlyph : Prop :=
  ∀ (row col c : Byte) (s : State), row.toNat ≤ 56 → col.toNat ≤ 120 → 0x20 ≤ c.toNat →
    c.toNat ≤ Config.glyphRom.last →
    ∃ (t : State) (g : List Byte), glyphBytes Config.glyphRom c = some g ∧ exec (.putcat row col c) s = .next t ∧
      t = { s with fb := t.fb, err := 0 } ∧
      ∀ a : Nat, t.fb.read a =
        if row.toNat / 8 * 128 + col.toNat ≤ a ∧ a < row.toNat / 8 * 128 + col.toNat + 5 then
          s.fb.read a ||| (g.getD (a - (row.toNat / 8 * 128 + col.toNat)) 0 <<< (row.toNat % 8))
        else if row.toNat % 8 ≠ 0 ∧ (row.toNat / 8 + 1) * 128 + col.toNat ≤ a ∧
            a < (row.toNat / 8 + 1) * 128 + col.toNat + 5 then
          s.fb.read a ||| (g.getD (a - ((row.toNat / 8 + 1) * 128 + col.toNat)) 0 >>> (8 - row.toNat % 8))
        else s.fb.read a

/-- R131: glyph bit b of column k lands on pixel (row + b, col + k), across the page boundary when there is one, and no
other pixel changes. -/
def Obligations.PutcatPlacesGlyphPixels : Prop :=
  ∀ (row col c : Byte) (g : List Byte) (s : State), row.toNat ≤ 56 → col.toNat ≤ 120 →
    glyphBytes Config.glyphRom c = some g →
    ∃ t, exec (.putcat row col c) s = .next t ∧
      ∀ r k : Nat, r < 64 → k < 128 →
        t.fb.pixel r k = (s.fb.pixel r k ||
          (decide (row.toNat ≤ r ∧ r < row.toNat + 7 ∧ col.toNat ≤ k ∧ k < col.toNat + 5) &&
            (g.getD (k - col.toNat) 0).getLsbD (r - row.toNat)))

/-- PUTCAT checks row, column, character, in that order, and a failing check leaves everything but `ERR` unchanged; the
sums do not wrap, and the line-feed code is an unsupported character here. -/
def Obligations.PutcatReportsItsFirstFailingCheck : Prop :=
  ∀ (row col c : Byte) (s : State) (e : Byte),
    e = (if 57 ≤ row.toNat then 1 else if 121 ≤ col.toNat then 2
      else if c.toNat < 0x20 ∨ Config.glyphRom.last < c.toNat then 6 else 0) →
    e ≠ 0 → exec (.putcat row col c) s = .next { s with err := e }

/-- R132: PUTCAT neither reads nor writes the cursor, in success and in failure. -/
def Obligations.PutcatIsIsolatedFromTheCursor : Prop :=
  ∀ (row col c : Byte) (s : State), ∃ (fb : Memory) (e : Byte),
    ∀ (page : BitVec 4) (column : Byte),
      exec (.putcat row col c) { s with curPage := page, curCol := column } =
        .next { s with curPage := page, curCol := column, fb := fb, err := e }

/-- R133: at the top row of a page PUTCAT and PUTC leave the same framebuffer. -/
def Obligations.PutcatOnAPageRowMatchesPutc : Prop :=
  ∀ (p : Nat) (row col c : Byte) (s : State), p < 8 → row.toNat = 8 * p → col.toNat ≤ 120 → 0x20 ≤ c.toNat →
    c.toNat ≤ Config.glyphRom.last →
    ∃ t u : State, exec (.putcat row col c) s = .next t ∧
      exec (.putc c) { s with curPage := BitVec.ofNat 4 p, curCol := col } = .next u ∧
      t.fb = u.fb ∧ t.curPage = s.curPage ∧ t.curCol = s.curCol

/-- R121: text turns pixels on and never off, except by the padding of a line-feed. -/
def Obligations.GlyphsNeverClearAPixel : Prop :=
  ∀ (i : Instr) (s t : State), i.mnemonic = .putc ∨ i.mnemonic = .putcat → i ≠ .putc 0x0A → exec i s = .next t →
    ∀ r c : Nat, r < 64 → c < 128 → s.fb.pixel r c = true → t.fb.pixel r c = true
end

