-- ==== Sys2Proof/Laws/State.lean ====
section
/-! SUPPORT. One lemma per field for every named update of the state, and the inversion lemmas of the ways a command
can end. -/

namespace Sys2Proof.Machine

/-! ## `State.finish` -/

@[simp] theorem finish_fb (s : State) (e : ErrCode) : (s.finish e).fb = s.fb := rfl
@[simp] theorem finish_curPage (s : State) (e : ErrCode) : (s.finish e).curPage = s.curPage := rfl
@[simp] theorem finish_curCol (s : State) (e : ErrCode) : (s.finish e).curCol = s.curCol := rfl
@[simp] theorem finish_err (s : State) (e : ErrCode) : (s.finish e).err = e.toByte := rfl
@[simp] theorem finish_ret (s : State) (e : ErrCode) : (s.finish e).ret = s.ret := rfl
@[simp] theorem finish_requests (s : State) (e : ErrCode) : (s.finish e).requests = s.requests := rfl
@[simp] theorem finish_replies (s : State) (e : ErrCode) : (s.finish e).replies = s.replies := rfl

/-! ## `State.reply` -/

@[simp] theorem reply_fb (s : State) (v : Byte) : (s.reply v).fb = s.fb := rfl
@[simp] theorem reply_curPage (s : State) (v : Byte) : (s.reply v).curPage = s.curPage := rfl
@[simp] theorem reply_curCol (s : State) (v : Byte) : (s.reply v).curCol = s.curCol := rfl
@[simp] theorem reply_err (s : State) (v : Byte) : (s.reply v).err = s.err := rfl
@[simp] theorem reply_ret (s : State) (v : Byte) : (s.reply v).ret = s.ret := rfl
@[simp] theorem reply_requests (s : State) (v : Byte) : (s.reply v).requests = s.requests := rfl
@[simp] theorem reply_replies (s : State) (v : Byte) : (s.reply v).replies = s.replies ++ [v] := rfl

/-! ## `State.coreReset` -/

@[simp] theorem coreReset_fb (s : State) : s.coreReset.fb = [] := rfl
@[simp] theorem coreReset_curPage (s : State) : s.coreReset.curPage = 0 := rfl
@[simp] theorem coreReset_curCol (s : State) : s.coreReset.curCol = 0 := rfl
@[simp] theorem coreReset_err (s : State) : s.coreReset.err = 0 := rfl
@[simp] theorem coreReset_ret (s : State) : s.coreReset.ret = 0 := rfl
@[simp] theorem coreReset_requests (s : State) : s.coreReset.requests = s.requests := rfl
@[simp] theorem coreReset_replies (s : State) : s.coreReset.replies = s.replies := rfl

/-! ## `present` and the step that accepts it -/

@[simp] theorem present_fb (w : CommandWord) (s : State) : (present w s).fb = s.fb := rfl
@[simp] theorem present_curPage (w : CommandWord) (s : State) : (present w s).curPage = s.curPage := rfl
@[simp] theorem present_curCol (w : CommandWord) (s : State) : (present w s).curCol = s.curCol := rfl
@[simp] theorem present_err (w : CommandWord) (s : State) : (present w s).err = s.err := rfl
@[simp] theorem present_ret (w : CommandWord) (s : State) : (present w s).ret = s.ret := rfl
@[simp] theorem present_requests (w : CommandWord) (s : State) :
    (present w s).requests = .command w :: s.requests := rfl
@[simp] theorem present_replies (w : CommandWord) (s : State) : (present w s).replies = s.replies := rfl

/-- A step accepts the first transaction presented. -/
theorem step_of_cons {s : State} {q : Request} {rest : List Request} (h : s.requests = q :: rest) :
    step s = serve q { s with requests := rest } := by
  simp [step, nextRequest, h]

/-- A step with no transaction presented changes nothing. -/
theorem step_idle {s : State} (h : s.requests = []) : step s = .next s := by
  simp [step, nextRequest, h]

/-- The step after a word is presented runs that word. -/
theorem step_present (w : CommandWord) (s : State) : step (present w s) = runCommand w s := rfl

/-! ## Ends of a command -/

@[simp] theorem raise_eq (e : ErrCode) (s : State) : raise e s = .next (s.finish e) := rfl

@[simp] theorem illegalCommand_eq (s : State) : illegalCommand s = .next (s.finish .illegalCommand) := rfl

@[simp] theorem conclude_eq (r : ErrCode × Memory) (s : State) :
    conclude r s = .next { s with fb := r.2, err := r.1.toByte } := rfl

@[simp] theorem deliver_ok (s : State) : deliver (.ok s) = .next (s.finish .ok) := rfl

@[simp] theorem deliver_error (f : Fault) : deliver (.error f) = .fault f := rfl

/-- What `deliver` answers with a next state. -/
theorem deliver_next {r : Except Fault State} {t : State} (h : deliver r = .next t) :
    ∃ s, r = .ok s ∧ t = s.finish .ok := by
  cases r with
  | ok s => exact ⟨s, rfl, by simpa using h.symm⟩
  | error f => cases h

/-! ## Codes -/

@[simp] theorem firstErr_nil : firstErr [] = .ok := rfl

/-- The first code decides unless it is OK. -/
theorem firstErr_cons (e : ErrCode) (es : List ErrCode) :
    firstErr (e :: es) = if e = .ok then firstErr es else e := by
  cases e <;> rfl

/-- No failure is reported exactly when every code is OK. -/
theorem firstErr_eq_ok (es : List ErrCode) : firstErr es = .ok ↔ ∀ e ∈ es, e = .ok := by
  induction es with
  | nil => simp
  | cons e es ih => cases e <;> simp [firstErr, ih]

/-- The codes fit three bits. -/
theorem toByte_le (e : ErrCode) : e.toByte.toNat ≤ 7 := by cases e <;> decide

/-- Different outcomes have different codes. -/
theorem toByte_inj {e e' : ErrCode} (h : e.toByte = e'.toByte) : e = e' := by
  cases e <;> cases e' <;> first | rfl | (revert h; decide)

end Sys2Proof.Machine
end

