-- ==== Sys2Proof/Laws/Paint.lean ====
section
/-! SUPPORT. The pixel addresser, `pixelWrite` and `paint`: which byte a pixel lives in, and what painting a list of
pixels does to each byte and to each pixel. -/

namespace Sys2Proof.Machine

theorem cellAddr_toNat {page col : Nat} (hp : page < 8) (hc : col < 128) :
    (cellAddr page col).toNat = page * 128 + col := by
  simp only [cellAddr, BitVec.toNat_ofNat]
  omega

theorem pixelAddr_toNat {row col : Nat} (hr : row < 64) (hc : col < 128) :
    (pixelAddr row col).addr.toNat = row / 8 * 128 + col :=
  cellAddr_toNat (by omega) hc

/-- Two pixels of the display share their byte and their bit only if they are one pixel. -/
theorem pixelAddr_inj {r c r' c' : Nat} (hr : r < 64) (hc : c < 128) (hr' : r' < 64) (hc' : c' < 128)
    (ha : (pixelAddr r c).addr.toNat = (pixelAddr r' c').addr.toNat) (hb : r % 8 = r' % 8) : r = r' ∧ c = c' := by
  rw [pixelAddr_toNat hr hc, pixelAddr_toNat hr' hc'] at ha
  omega

/-- Bit `i` of the mask of bit `b` (R44). -/
theorem mask_getLsbD {b i : Nat} (hb : b < 8) (hi : i < 8) :
    ((1 : Byte) <<< b).getLsbD i = decide (i = b) := by
  have : ∀ b : Fin 8, ∀ i : Fin 8, ((1 : Byte) <<< b.val).getLsbD i.val = decide (i.val = b.val) := by decide
  exact this ⟨b, hb⟩ ⟨i, hi⟩

/-- A masked update changes the masked bit to the mode's value and no other bit. -/
theorem apply_getLsbD (m : Mode) (old : Byte) {b i : Nat} (hb : b < 8) (hi : i < 8) :
    (m.apply ((1 : Byte) <<< b) old).getLsbD i = if i = b then m.bit else old.getLsbD i := by
  have hm := mask_getLsbD hb hi
  cases m with
  | set =>
    rw [Mode.apply, BitVec.getLsbD_or, hm]
    by_cases h : i = b <;> simp [Mode.bit, h]
  | clear =>
    rw [Mode.apply, BitVec.getLsbD_and, BitVec.getLsbD_not, hm]
    by_cases h : i = b <;> simp [Mode.bit, h, hi]

theorem onDisplay_iff (p : Point) :
    p.onDisplay = true ↔ 0 ≤ p.row ∧ p.row < 64 ∧ 0 ≤ p.col ∧ p.col < 128 := by
  simp [Point.onDisplay, and_assoc]

/-- `pixelWrite` changes at most the byte of its pixel. -/
theorem read_pixelWrite (m : Mode) (fb : Memory) (p : Point) (a : Nat) :
    (pixelWrite m fb p).read a =
      if p.onDisplay = true ∧ a = (pixelAddr p.row.toNat p.col.toNat).addr.toNat then
        m.apply (pixelAddr p.row.toNat p.col.toNat).mask (fb.read a)
      else fb.read a := by
  by_cases h : p.onDisplay = true
  · rw [pixelWrite, if_pos h, Memory.read_write]
    by_cases ha : a = (pixelAddr p.row.toNat p.col.toNat).addr.toNat
    · rw [if_pos ha, if_pos ⟨h, ha⟩, ha]
    · rw [if_neg ha, if_neg fun hc => ha hc.2]
  · rw [pixelWrite, if_neg h, if_neg fun hc => h hc.1]

/-- `pixelWrite` gives its pixel the mode's value and changes no other pixel. -/
theorem pixel_pixelWrite (m : Mode) (fb : Memory) (p : Point) {r c : Nat} (hr : r < 64) (hc : c < 128) :
    (pixelWrite m fb p).pixel r c = if p = ⟨r, c⟩ then m.bit else fb.pixel r c := by
  obtain ⟨pr, pc⟩ := p
  simp only [Memory.pixel, read_pixelWrite]
  by_cases hd : (⟨pr, pc⟩ : Point).onDisplay = true
  · obtain ⟨h1, h2, h3, h4⟩ := (onDisplay_iff _).1 hd
    obtain ⟨r', rfl⟩ := Int.eq_ofNat_of_zero_le h1
    obtain ⟨c', rfl⟩ := Int.eq_ofNat_of_zero_le h3
    have hr' : r' < 64 := by simp only at h2; omega
    have hc' : c' < 128 := by simp only at h4; omega
    simp only [hd, true_and, Int.toNat_natCast, Point.mk.injEq, Int.natCast_inj]
    by_cases ha : (pixelAddr r c).addr.toNat = (pixelAddr r' c').addr.toNat
    · rw [if_pos ha]
      have hb : r % 8 < 8 := Nat.mod_lt _ (by decide)
      have hb' : r' % 8 < 8 := Nat.mod_lt _ (by decide)
      show (m.apply ((1 : Byte) <<< (r' % 8)) _).getLsbD (r % 8) = _
      rw [apply_getLsbD m _ hb' hb]
      by_cases hbit : r % 8 = r' % 8
      · have := pixelAddr_inj hr hc hr' hc' ha hbit
        rw [if_pos hbit, if_pos ⟨this.1.symm, this.2.symm⟩]
      · have : ¬(r' = r ∧ c' = c) := by rintro ⟨rfl, rfl⟩; exact hbit rfl
        rw [if_neg hbit, if_neg this]
        rfl
    · have : ¬(r' = r ∧ c' = c) := by rintro ⟨rfl, rfl⟩; exact ha rfl
      rw [if_neg ha, if_neg this]
  · have : ¬((⟨pr, pc⟩ : Point) = ⟨(r : Int), (c : Int)⟩) := by
      intro h
      apply hd
      rw [h, onDisplay_iff]
      refine ⟨?_, ?_, ?_, ?_⟩ <;> simp only <;> omega
    rw [if_neg fun h => hd h.1, if_neg this]

/-- `pixelWrite` keeps the canonical form. -/
theorem wf_pixelWrite (m : Mode) {fb : Memory} (p : Point) (h : fb.wf = true) : (pixelWrite m fb p).wf = true := by
  by_cases hd : p.onDisplay = true
  · rw [pixelWrite, if_pos hd]
    exact Memory.wf_write _ (pixelAddr p.row.toNat p.col.toNat).addr.isLt h
  · rw [pixelWrite, if_neg hd]
    exact h

@[simp] theorem paint_nil (m : Mode) (fb : Memory) : paint m [] fb = fb := rfl

@[simp] theorem paint_cons (m : Mode) (p : Point) (ps : List Point) (fb : Memory) :
    paint m (p :: ps) fb = paint m ps (pixelWrite m fb p) := rfl

theorem paint_append (m : Mode) (ps qs : List Point) (fb : Memory) :
    paint m (ps ++ qs) fb = paint m qs (paint m ps fb) := by
  simp [paint, List.foldl_append]

/-- Painting gives every listed pixel of the display the mode's value and changes no other pixel. -/
theorem pixel_paint (m : Mode) (ps : List Point) (fb : Memory) {r c : Nat} (hr : r < 64) (hc : c < 128) :
    (paint m ps fb).pixel r c = if (⟨r, c⟩ : Point) ∈ ps then m.bit else fb.pixel r c := by
  induction ps generalizing fb with
  | nil => simp
  | cons p ps ih =>
    rw [paint_cons, ih, pixel_pixelWrite m fb p hr hc]
    by_cases h1 : (⟨r, c⟩ : Point) ∈ ps
    · simp [h1]
    · by_cases h2 : p = ⟨(r : Int), (c : Int)⟩
      · simp [h2]
      · have : ¬((⟨(r : Int), (c : Int)⟩ : Point) = p) := fun h => h2 h.symm
        simp [h1, h2, this]

/-- Painting changes no byte that holds none of the listed pixels. -/
theorem read_paint_of_forall (m : Mode) (ps : List Point) (fb : Memory) (a : Nat)
    (h : ∀ p ∈ ps, p.onDisplay = true → a ≠ (pixelAddr p.row.toNat p.col.toNat).addr.toNat) :
    (paint m ps fb).read a = fb.read a := by
  induction ps generalizing fb with
  | nil => rfl
  | cons p ps ih =>
    rw [paint_cons, ih _ fun q hq => h q (List.mem_cons_of_mem _ hq), read_pixelWrite, if_neg]
    rintro ⟨hd, ha⟩
    exact h p List.mem_cons_self hd ha

/-- Painting keeps the canonical form. -/
theorem wf_paint (m : Mode) (ps : List Point) {fb : Memory} (h : fb.wf = true) : (paint m ps fb).wf = true := by
  induction ps generalizing fb with
  | nil => exact h
  | cons p ps ih => exact ih (wf_pixelWrite m p h)

end Sys2Proof.Machine
end

