-- ==== Sys2Proof/Laws/Blit.lean ====
section
/-! SUPPORT. The page-byte accesses of the glyph blitter: where they exist, each of them answers, and says what it does
to every byte. -/

namespace Sys2Proof.Machine

theorem cellAt_ok {page col : Nat} (hp : page < 8) (hc : col < 128) : cellAt page col = .ok (cellAddr page col) := by
  rw [cellAt, if_pos ⟨hp, hc⟩]

theorem cellAt_error {page col : Nat} (h : ¬(page < 8 ∧ col < 128)) :
    cellAt page col = .error (.noSuchCell page col) := by
  rw [cellAt, if_neg h]

/-- The OR-write of an existing cell. -/
theorem orCell_ok {page col : Nat} (v : Byte) (fb : Memory) (hp : page < 8) (hc : col < 128) :
    orCell page col v fb = .ok (fb.write (page * 128 + col) (fb.read (page * 128 + col) ||| v)) := by
  rw [orCell, cellAt_ok hp hc]
  simp only [cellAddr_toNat hp hc]

/-- The zero-write of an existing cell. -/
theorem zeroCell_ok {page col : Nat} (fb : Memory) (hp : page < 8) (hc : col < 128) :
    zeroCell page col fb = .ok (fb.write (page * 128 + col) 0) := by
  rw [zeroCell, cellAt_ok hp hc]
  simp only [cellAddr_toNat hp hc]

/-- All that `zeroSpan` does inside the display: the bytes of the span read 0x00, every other byte is unchanged, and the
canonical form is kept. -/
theorem zeroSpan_spec {page : Nat} (hp : page < 8) (n : Nat) :
    ∀ (col : Nat) (fb : Memory), col + n ≤ 128 →
      ∃ fb', zeroSpan page col n fb = .ok fb' ∧ (fb.wf = true → fb'.wf = true) ∧
        ∀ a, fb'.read a = if page * 128 + col ≤ a ∧ a < page * 128 + col + n then 0 else fb.read a := by
  induction n with
  | zero =>
    intro col fb _
    refine ⟨fb, rfl, id, fun a => ?_⟩
    rw [if_neg (by omega)]
  | succ n ih =>
    intro col fb h
    obtain ⟨fb', he, hwf, hr⟩ := ih (col + 1) (fb.write (page * 128 + col) 0) (by omega)
    refine ⟨fb', ?_, fun hw => hwf (Memory.wf_write _ (by omega) hw), fun a => ?_⟩
    · rw [zeroSpan, zeroCell_ok fb hp (by omega)]
      exact he
    · rw [hr, Memory.read_write]
      by_cases h1 : a = page * 128 + col
      · rw [if_neg (by omega), if_pos h1, if_pos (by omega)]
      · by_cases h2 : page * 128 + (col + 1) ≤ a ∧ a < page * 128 + (col + 1) + n
        · rw [if_pos h2, if_pos (by omega)]
        · rw [if_neg h2, if_neg h1, if_neg (by omega)]

/-- All that `orBlit` does inside the display: byte `i` of the list is OR-ed into the cell `i` columns on, every other
byte is unchanged, and the canonical form is kept. -/
theorem orBlit_spec {page : Nat} (hp : page < 8) (g : List Byte) :
    ∀ (col : Nat) (fb : Memory), col + g.length ≤ 128 →
      ∃ fb', orBlit page col g fb = .ok fb' ∧ (fb.wf = true → fb'.wf = true) ∧
        ∀ a, fb'.read a =
          if page * 128 + col ≤ a ∧ a < page * 128 + col + g.length then
            fb.read a ||| g.getD (a - (page * 128 + col)) 0
          else fb.read a := by
  induction g with
  | nil =>
    intro col fb _
    refine ⟨fb, rfl, id, fun a => ?_⟩
    rw [if_neg (by simp only [List.length_nil]; omega)]
  | cons v vs ih =>
    intro col fb h
    rw [List.length_cons] at h
    obtain ⟨fb', he, hwf, hr⟩ :=
      ih (col + 1) (fb.write (page * 128 + col) (fb.read (page * 128 + col) ||| v)) (by omega)
    refine ⟨fb', ?_, fun hw => hwf (Memory.wf_write _ (by omega) hw), fun a => ?_⟩
    · rw [orBlit, orCell_ok v fb hp (by omega)]
      exact he
    · rw [hr, Memory.read_write, List.length_cons]
      by_cases h1 : a = page * 128 + col
      · rw [if_neg (by omega), if_pos h1, if_pos (by omega), h1, Nat.sub_self]
        rfl
      · by_cases h2 : page * 128 + (col + 1) ≤ a ∧ a < page * 128 + (col + 1) + vs.length
        · rw [if_pos h2, if_neg h1, if_pos (by omega)]
          have : a - (page * 128 + col) = a - (page * 128 + (col + 1)) + 1 := by omega
          rw [this, List.getD_cons_succ]
        · rw [if_neg h2, if_neg h1, if_neg (by omega)]

/-- All that `shiftCell` does inside the display. -/
theorem shiftCell_spec {page shift col : Nat} (v : Byte) (fb : Memory) (hp : page < 8)
    (hs : shift ≠ 0 → page + 1 < 8) (hc : col < 128) :
    ∃ fb', shiftCell page shift col v fb = .ok fb' ∧ (fb.wf = true → fb'.wf = true) ∧
      ∀ a, fb'.read a =
        if a = page * 128 + col then fb.read a ||| stayByte shift v
        else if shift ≠ 0 ∧ a = (page + 1) * 128 + col then fb.read a ||| spillByte shift v
        else fb.read a := by
  rw [shiftCell, orCell_ok _ fb hp hc]
  by_cases h : shift = 0
  · refine ⟨fb.write (page * 128 + col) (fb.read (page * 128 + col) ||| stayByte shift v), if_neg fun hc => hc h,
      fun hw => Memory.wf_write _ (by omega) hw, fun a => ?_⟩
    rw [Memory.read_write]
    by_cases h1 : a = page * 128 + col
    · rw [if_pos h1, if_pos h1, h1]
    · rw [if_neg h1, if_neg h1, if_neg fun hc => hc.1 h]
  · have hp1 := hs h
    refine ⟨_, by simp only [ne_eq, h, not_false_eq_true, if_true]; exact orCell_ok _ _ hp1 hc,
      fun hw => Memory.wf_write _ (by omega) (Memory.wf_write _ (by omega) hw), fun a => ?_⟩
    rw [Memory.read_write, Memory.read_write, Memory.read_write]
    by_cases h1 : a = page * 128 + col
    · rw [if_neg (by omega), if_pos h1, if_pos h1, h1]
    · by_cases h2 : a = (page + 1) * 128 + col
      · rw [if_pos h2, if_neg (by omega), if_neg h1, if_pos ⟨h, h2⟩, h2]
      · rw [if_neg h2, if_neg h1, if_neg h1, if_neg fun hc => h2 hc.2]

/-- All that `shiftBlit` does inside the display: byte `i` of the glyph, shifted, is OR-ed into the cell `i` columns on
of the target page, its spill into the same column of the next page unless the shift is 0, and every other byte is
unchanged. -/
theorem shiftBlit_spec {page shift : Nat} (hp : page < 8) (hs : shift ≠ 0 → page + 1 < 8) (g : List Byte) :
    ∀ (col : Nat) (fb : Memory), col + g.length ≤ 128 →
      ∃ fb', shiftBlit page shift col g fb = .ok fb' ∧ (fb.wf = true → fb'.wf = true) ∧
        ∀ a, fb'.read a =
          if page * 128 + col ≤ a ∧ a < page * 128 + col + g.length then
            fb.read a ||| stayByte shift (g.getD (a - (page * 128 + col)) 0)
          else if shift ≠ 0 ∧ (page + 1) * 128 + col ≤ a ∧ a < (page + 1) * 128 + col + g.length then
            fb.read a ||| spillByte shift (g.getD (a - ((page + 1) * 128 + col)) 0)
          else fb.read a := by
  induction g with
  | nil =>
    intro col fb _
    refine ⟨fb, rfl, id, fun a => ?_⟩
    rw [if_neg (by simp only [List.length_nil]; omega), if_neg (by simp only [List.length_nil]; omega)]
  | cons v vs ih =>
    intro col fb h
    rw [List.length_cons] at h
    obtain ⟨fb1, he1, hwf1, hr1⟩ := shiftCell_spec v fb hp hs (show col < 128 by omega)
    obtain ⟨fb', he, hwf, hr⟩ := ih (col + 1) fb1 (by omega)
    refine ⟨fb', ?_, fun hw => hwf (hwf1 hw), fun a => ?_⟩
    · rw [shiftBlit, he1]
      exact he
    · rw [hr, hr1, List.length_cons]
      by_cases h1 : a = page * 128 + col
      · rw [if_neg (by omega), if_neg (by omega), if_pos h1, if_pos (by omega), h1, Nat.sub_self]
        rfl
      · by_cases h2 : page * 128 + (col + 1) ≤ a ∧ a < page * 128 + (col + 1) + vs.length
        · have : a - (page * 128 + col) = a - (page * 128 + (col + 1)) + 1 := by omega
          rw [if_pos h2, if_neg h1, if_neg (by omega), if_pos (by omega), this, List.getD_cons_succ]
        · rw [if_neg h2, if_neg h1, if_neg (c := page * 128 + col ≤ a ∧ _) (by omega)]
          by_cases h0 : shift = 0
          · rw [if_neg fun hc => hc.1 h0, if_neg fun hc => hc.1 h0, if_neg fun hc => hc.1 h0]
          · by_cases h3 : a = (page + 1) * 128 + col
            · rw [if_neg (by omega), if_pos ⟨h0, h3⟩, if_pos ⟨h0, by omega⟩, h3, Nat.sub_self]
              rfl
            · by_cases h4 : (page + 1) * 128 + (col + 1) ≤ a ∧ a < (page + 1) * 128 + (col + 1) + vs.length
              · have : a - ((page + 1) * 128 + col) = a - ((page + 1) * 128 + (col + 1)) + 1 := by omega
                rw [if_pos ⟨h0, h4⟩, if_neg fun hc => h3 hc.2, if_pos ⟨h0, by omega⟩, this, List.getD_cons_succ]
              · rw [if_neg fun hc => h4 hc.2, if_neg fun hc => h3 hc.2, if_neg (by omega)]

/-- `GLYPH_LAST` is a byte value, and the code 0x20 is always supported (R8). -/
theorem glyphLast_bounds (rom : GlyphRom) : 0x20 ≤ rom.last ∧ rom.last ≤ 0xFF := by
  have := rom.lastIndex.isLt
  simp only [GlyphRom.last, GlyphRom.count]
  omega

/-- A glyph has five column bytes (R121). -/
theorem glyphBytes_length {rom : GlyphRom} {c : Byte} {g : List Byte} (h : glyphBytes rom c = some g) :
    g.length = 5 := by
  unfold glyphBytes at h
  split at h
  · cases h
  · cases h
    rfl

/-- A code has a glyph exactly when it is in 0x20 … `GLYPH_LAST` (R120). -/
theorem glyphBytes_isSome (rom : GlyphRom) (c : Byte) :
    (glyphBytes rom c).isSome = true ↔ 0x20 ≤ c.toNat ∧ c.toNat ≤ rom.last := by
  unfold glyphBytes
  split <;> simp <;> omega

/-- All that the glyph lookup does: the codes that have a glyph, and its five bytes of the ROM (R120). -/
theorem glyphBytes_eq_some {rom : GlyphRom} {c : Byte} {g : List Byte} :
    glyphBytes rom c = some g ↔
      (0x20 ≤ c.toNat ∧ c.toNat ≤ rom.last) ∧ g = (List.range 5).map fun k => rom.byte (5 * (c.toNat - 0x20) + k) := by
  unfold glyphBytes
  split
  · simp only [reduceCtorEq, false_iff]
    omega
  · simp only [Option.some.injEq, List.range, List.range.loop, List.map_cons, List.map_nil, Nat.add_zero]
    constructor
    · rintro rfl
      exact ⟨by omega, rfl⟩
    · rintro ⟨-, rfl⟩
      rfl

/-- The cursor at which a glyph is drawn is on the display whenever `CUR_PAGE` is at most 8. -/
theorem glyphCursor_lt {page col : Nat} (hp : page ≤ 8) :
    (glyphCursor page col).1 < 8 ∧ (glyphCursor page col).2 + 5 ≤ 126 := by
  simp only [glyphCursor, normalisePage, exceedsWidth]
  split <;> simp only <;> (repeat' split) <;> omega

end Sys2Proof.Machine
end

