-- ==== Sys2Proof/Laws/Decode.lean ====
section
/-! SUPPORT. The byte fields of a packed word. -/

namespace Sys2Proof

@[simp] theorem byteField_packBytes_zero (b : Byte) (bs : List Byte) : byteField (packBytes (b :: bs)) 0 = b := by
  apply BitVec.eq_of_getLsbD_eq
  intro i hi
  simp [byteField, packBytes, hi, show i < 64 by omega]

theorem byteField_packBytes_succ (b : Byte) (bs : List Byte) {k : Nat} (hk : k < 7) :
    byteField (packBytes (b :: bs)) (k + 1) = byteField (packBytes bs) k := by
  apply BitVec.eq_of_getLsbD_eq
  intro i hi
  have h1 : ¬(8 * (k + 1) + i < 8) := by omega
  have h2 : 8 * (k + 1) + i < 64 := by omega
  have h3 : 8 * (k + 1) + i - 8 = 8 * k + i := by omega
  simp only [byteField, packBytes, BitVec.getLsbD_extractLsb', BitVec.getLsbD_or, BitVec.getLsbD_shiftLeft,
    BitVec.getLsbD_setWidth, hi, h1, h2, h3, BitVec.getLsbD_of_ge b (8 * (k + 1) + i) (by omega)]
  simp

/-- Byte `k` of a packed word is the `k`-th byte given, and 0x00 where none was given (R56, R65). -/
theorem byteField_packBytes (bs : List Byte) {k : Nat} (hk : k < 8) : byteField (packBytes bs) k = bs.getD k 0 := by
  induction bs generalizing k with
  | nil =>
    apply BitVec.eq_of_getLsbD_eq
    intro i hi
    simp [byteField, packBytes]
  | cons b bs ih =>
    cases k with
    | zero => simp
    | succ k => rw [byteField_packBytes_succ b bs (by omega), ih (by omega), List.getD_cons_succ]

/-- Two command words with the same eight bytes are the same word (R60). -/
theorem commandWord_ext {w w' : CommandWord} (h : ∀ k < 8, byteField w k = byteField w' k) : w = w' := by
  apply BitVec.eq_of_getLsbD_eq
  intro i hi
  have hk := congrArg (fun b => BitVec.getLsbD b (i % 8)) (h (i / 8) (by omega))
  have h1 : i % 8 < 8 := Nat.mod_lt _ (by decide)
  have h2 : 8 * (i / 8) + i % 8 = i := by omega
  simpa [byteField, h1, h2] using hk

end Sys2Proof
end

