-- ==== Sys2Proof/Laws/Draw.lean ====
section
/-! SUPPORT. The sub-operations of the drawing commands: loops, clusters, checked drawing, and composites. -/

namespace Sys2Proof.Machine

/-! ## Operands and loops -/

@[simp] theorem operand_nonneg (b : Byte) : 0 ≤ operand b := Int.natCast_nonneg _

theorem operand_lt (b : Byte) : operand b < 256 := by
  have := b.isLt
  simp only [operand]
  omega

@[simp] theorem operand_toNat (b : Byte) : (operand b).toNat = b.toNat := Int.toNat_natCast _

theorem mem_loopRange {a b x : Int} : x ∈ loopRange a b ↔ a ≤ x ∧ x ≤ b := by
  simp only [loopRange, List.mem_map, List.mem_range]
  constructor
  · rintro ⟨k, hk, rfl⟩
    omega
  · intro h
    exact ⟨(x - a).toNat, by omega, by omega⟩

theorem loopRange_length (a b : Int) : (loopRange a b).length = (b - a + 1).toNat := by
  simp [loopRange]

theorem mem_hLinePoints {colA colB row : Int} {p : Point} :
    p ∈ hLinePoints colA colB row ↔ p.row = row ∧ min colA colB ≤ p.col ∧ p.col ≤ max colA colB := by
  obtain ⟨r, c⟩ := p
  simp only [hLinePoints, List.mem_map, mem_loopRange, Point.mk.injEq]
  constructor
  · rintro ⟨x, hx, rfl, rfl⟩
    exact ⟨rfl, hx⟩
  · rintro ⟨rfl, hc⟩
    exact ⟨c, hc, rfl, rfl⟩

theorem mem_vLinePoints {col rowA rowB : Int} {p : Point} :
    p ∈ vLinePoints col rowA rowB ↔ p.col = col ∧ min rowA rowB ≤ p.row ∧ p.row ≤ max rowA rowB := by
  obtain ⟨r, c⟩ := p
  simp only [vLinePoints, List.mem_map, mem_loopRange, Point.mk.injEq]
  constructor
  · rintro ⟨x, hx, rfl, rfl⟩
    exact ⟨rfl, hx⟩
  · rintro ⟨rfl, hr⟩
    exact ⟨r, hr, rfl, rfl⟩

/-! ## Modes and checks -/

@[simp] theorem modeOf_byte (m : Mode) : modeOf m.byte = m := by cases m <;> rfl

theorem checkMode_ok {m : Byte} : checkMode m = .ok ↔ m = 0x73 ∨ m = 0x63 := by
  unfold checkMode
  split <;> simp <;> tauto

theorem checkTM_ok {t m : Byte} : checkTM t m = .ok ↔ t.toNat ≤ 1 ∧ (m = 0x73 ∨ m = 0x63) := by
  unfold checkTM
  split
  · simp; omega
  · rw [checkMode_ok]
    constructor
    · intro h; exact ⟨by omega, h⟩
    · exact fun h => h.2

theorem checkPt_ok {row col : Int} :
    checkPt row col = .ok ↔ 0 ≤ row ∧ row < 64 ∧ 0 ≤ col ∧ col < 128 := by
  unfold checkPt
  split
  · simp; omega
  · split
    · simp; omega
    · simp; omega

/-! ## Clusters -/

@[simp] theorem cluster_zero (p : Point) : cluster 0 p = [p] := rfl

theorem mem_cluster_self (t : Byte) (p : Point) : p ∈ cluster t p := by
  unfold cluster
  split <;> simp

/-! ## Checked drawing -/

theorem drawChecked_of_ok {checks : List ErrCode} (h : firstErr checks = .ok) (t m : Byte) (ps : List Point)
    (fb : Memory) : drawChecked checks t m ps fb = (.ok, drawPoints t m ps fb) := by
  simp [drawChecked, h]

theorem drawChecked_of_err {checks : List ErrCode} (h : firstErr checks ≠ .ok) (t m : Byte) (ps : List Point)
    (fb : Memory) : drawChecked checks t m ps fb = (firstErr checks, fb) := by
  unfold drawChecked
  split
  · exact absurd ‹_› h
  · rfl

/-- The code of a checked sub-operation does not depend on the framebuffer. -/
@[simp] theorem drawChecked_code (checks : List ErrCode) (t m : Byte) (ps : List Point) (fb : Memory) :
    (drawChecked checks t m ps fb).1 = firstErr checks := by
  by_cases h : firstErr checks = .ok
  · rw [drawChecked_of_ok h, h]
  · rw [drawChecked_of_err h]

/-- All that a checked sub-operation does to the framebuffer: paint the clusters of its points, or nothing. -/
theorem drawChecked_fb (checks : List ErrCode) (t m : Byte) (ps : List Point) (fb : Memory) :
    (drawChecked checks t m ps fb).2 =
      paint (modeOf m) (if firstErr checks = .ok then ps.flatMap (cluster t) else []) fb := by
  by_cases h : firstErr checks = .ok
  · rw [drawChecked_of_ok h, if_pos h]
    rfl
  · rw [drawChecked_of_err h, if_neg h]
    rfl

theorem wf_drawChecked (checks : List ErrCode) (t m : Byte) (ps : List Point) {fb : Memory} (h : fb.wf = true) :
    (drawChecked checks t m ps fb).2.wf = true := by
  rw [drawChecked_fb]
  exact wf_paint _ _ h

theorem hLine_code (colA colB row t m : Byte) (fb : Memory) :
    (hLine colA colB row t m fb).1 =
      firstErr [checkTM t m, checkPt (operand row) (operand colA), checkPt (operand row) (operand colB)] :=
  drawChecked_code _ _ _ _ _

theorem vLine_code (col rowA rowB t m : Byte) (fb : Memory) :
    (vLine col rowA rowB t m fb).1 =
      firstErr [checkTM t m, checkPt (operand rowA) (operand col), checkPt (operand rowB) (operand col)] :=
  drawChecked_code _ _ _ _ _

theorem line_code (x1 y1 x2 y2 : Int) (t m : Byte) (fb : Memory) :
    (line x1 y1 x2 y2 t m fb).1 = firstErr [checkTM t m, checkPt y1 x1, checkPt y2 x2] :=
  drawChecked_code _ _ _ _ _

/-! ## Composites -/

@[simp] theorem runAll_nil (fb : Memory) : runAll [] fb = (.ok, fb) := rfl

theorem runAll_cons (op : Memory → ErrCode × Memory) (ops : List (Memory → ErrCode × Memory)) (fb : Memory) :
    runAll (op :: ops) fb = (firstErr [(op fb).1, (runAll ops (op fb).2).1], (runAll ops (op fb).2).2) := rfl

/-- A composite keeps what each of its sub-operations keeps. -/
theorem runAll_keeps (P : Memory → Prop) (ops : List (Memory → ErrCode × Memory))
    (h : ∀ op ∈ ops, ∀ fb, P fb → P (op fb).2) (fb : Memory) (hfb : P fb) : P (runAll ops fb).2 := by
  induction ops generalizing fb with
  | nil => exact hfb
  | cons op ops ih =>
    exact ih (fun o ho => h o (List.mem_cons_of_mem _ ho)) _ (h op List.mem_cons_self fb hfb)

/-- All that a composite of checked drawings does: the code of the first part that failed, and the clusters of the
points of the parts that did not fail, in order. -/
theorem runAll_drawChecked (t m : Byte) (parts : List (List ErrCode × List Point)) (fb : Memory) :
    runAll (parts.map fun part => drawChecked part.1 t m part.2) fb =
      (firstErr (parts.map fun part => firstErr part.1),
        paint (modeOf m)
          ((parts.flatMap fun part => if firstErr part.1 = .ok then part.2 else []).flatMap (cluster t)) fb) := by
  induction parts generalizing fb with
  | nil => rfl
  | cons part parts ih =>
    rw [List.map_cons, runAll_cons, ih, drawChecked_code, drawChecked_fb]
    simp only [List.map_cons, List.flatMap_cons, List.flatMap_append, paint_append]
    refine Prod.ext ?_ ?_
    · rw [firstErr_cons, firstErr_cons (firstErr part.1)]
      split
      · rw [firstErr_cons, firstErr_nil]
        split
        · exact Eq.symm ‹_›
        · rfl
      · rfl
    · split <;> simp

/-! ## The walk of a line -/

/-- The loop of `Line` draws one point per iteration. -/
@[simp] theorem walk_length (c : LineSetup) (n : Nat) (x y err : Int) : (c.walk n x y err).length = n := by
  induction n generalizing x y err with
  | zero => rfl
  | succ n ih =>
    simp only [LineSetup.walk, List.length_cons]
    split <;> rw [ih]

/-- All that the loop of `Line` does from an error in range: its point `k` is `k` steps further in x and `n` steps further
in y, `n` the least number that keeps the error from being negative (R94, R95). -/
theorem walk_getElem (c : LineSetup) (hdy : 0 ≤ c.dy) (hle : c.dy ≤ c.dx) (len : Nat) {k : Nat} {x y err : Int}
    {p : Point} (hp : (c.walk len x y err)[k]? = some p) (h0 : 0 ≤ err) (h1 : err < c.dx ∨ (c.dx = 0 ∧ err = 0)) :
    ∃ n : Nat, 0 ≤ err - k * c.dy + n * c.dx ∧ (∀ j < n, err - k * c.dy + (j : Nat) * c.dx < 0) ∧
      p = c.plot (x + k) (y + n * c.yStep) := by
  induction len generalizing k x y err with
  | zero => simp [LineSetup.walk] at hp
  | succ len ih =>
    cases k with
    | zero =>
      simp only [LineSetup.walk, List.getElem?_cons_zero, Option.some.injEq] at hp
      exact ⟨0, by simpa using h0, by simp, by simp [← hp]⟩
    | succ k =>
      rw [LineSetup.walk, List.getElem?_cons_succ] at hp
      split at hp
      · obtain ⟨n, hn, hmin, rfl⟩ := ih hp (by omega) (by omega)
        refine ⟨n + 1, by push_cast; linarith, fun j hj => ?_, ?_⟩
        · cases j with
          | zero =>
            have : (0 : Int) ≤ k * c.dy := by positivity
            push_cast
            linarith
          | succ j =>
            have := hmin j (by omega)
            push_cast
            linarith
        · congr 1 <;> push_cast <;> ring
      · obtain ⟨n, hn, hmin, rfl⟩ := ih hp (by omega) (by omega)
        refine ⟨n, by push_cast; linarith, fun j hj => ?_, ?_⟩
        · have := hmin j hj
          push_cast
          linarith
        · congr 1
          push_cast
          ring

end Sys2Proof.Machine
end

