-- ==== Sys2Proof/Laws/PerInstr.lean ====
section
/-! SUPPORT. Statements about every command as syntax, one lemma per constructor. -/

namespace Sys2Proof.Laws.WellFormed

/-- Every decoded command is well formed: it carries as many operands as its format names, each an unsigned byte
(30_encoding.md R61, R62, R64). -/
def Statement (i : Instr) : Prop := i.wellFormed = true

/-- Operands taken from bytes fit bytes, so only their number is left to check. -/
theorem of_arity {i : Instr} (h : i.operandBytes.length = i.mnemonic.arity) : Statement i := by
  simp only [Statement, Instr.wellFormed, SourceCommand.wellFormed, SourceCommand.arityFits,
    SourceCommand.operandsFit, Instr.source, Bool.and_eq_true, beq_iff_eq, List.length_map, List.all_eq_true,
    List.mem_map, decide_eq_true_eq]
  refine ⟨h, ?_⟩
  rintro _ ⟨b, _, rfl⟩
  exact b.isLt

theorem pix (row col m : Byte) : Statement (.pix row col m) := of_arity rfl

theorem point (row col t m : Byte) : Statement (.point row col t m) := of_arity rfl

theorem hline (colA colB row t m : Byte) : Statement (.hline colA colB row t m) := of_arity rfl

theorem vline (col rowA rowB t m : Byte) : Statement (.vline col rowA rowB t m) := of_arity rfl

theorem line (x1 y1 x2 y2 t m : Byte) : Statement (.line x1 y1 x2 y2 t m) := of_arity rfl

theorem rect (x1 y1 x2 y2 t m : Byte) : Statement (.rect x1 y1 x2 y2 t m) := of_arity rfl

theorem arc (cx cy r aStart aEnd t m : Byte) : Statement (.arc cx cy r aStart aEnd t m) := of_arity rfl

theorem putc (c : Byte) : Statement (.putc c) := of_arity rfl

theorem setpg (p : Byte) : Statement (.setpg p) := of_arity rfl

theorem setcol (c : Byte) : Statement (.setcol c) := of_arity rfl

theorem putcat (row col c : Byte) : Statement (.putcat row col c) := of_arity rfl

end Sys2Proof.Laws.WellFormed
end

