-- ==== Sys2Proof/Tests/Slice0.lean ====
section
/-! SUPPORT. Tests on fixed values, expected results from 95_test_vectors.md and the examples of the rules; and, for each
obligation with hypotheses, a concrete state and operands that meet them. -/

namespace Sys2Proof.Tests

open Sys2Proof.Machine

/-! ## Well-formedness -/

/-- Two operands where the format names three (R61). -/
theorem test_arity_refused : SourceCommand.arityFits ⟨.pix, [0, 0]⟩ = false := by decide

/-- One operand too many (R61). -/
theorem test_extra_operand_refused : SourceCommand.word ⟨.setpg, [0, 0]⟩ = none := by decide

/-- An operand of 256 is no byte (R62). -/
theorem test_operand_refused : SourceCommand.operandsFit ⟨.setcol, [256]⟩ = false := by decide

/-- Both checks together. -/
theorem test_wellFormed_refused :
    SourceCommand.wellFormed ⟨.pix, [0, 0]⟩ = false ∧ SourceCommand.wellFormed ⟨.pix, [0, 300, 0x73]⟩ = false ∧
      SourceCommand.wellFormed ⟨.pix, [0, 255, 0x73]⟩ = true := by decide

/-! ## Decoding, words of 95_test_vectors.md section 2 -/

theorem test_decode_pix : decode 0x0000000073050901 = .ok (.pix 9 5 0x73) := by decide

theorem test_decode_point : decode 0x0000007301140A02 = .ok (.point 10 20 1 0x73) := by decide

theorem test_decode_hline : decode 0x00007301070C0A03 = .ok (.hline 10 12 7 1 0x73) := by decide

theorem test_decode_vline : decode 0x000073000A060704 = .ok (.vline 7 6 10 0 0x73) := by decide

theorem test_decode_line : decode 0x0073010B0D0A0A05 = .ok (.line 10 10 13 11 1 0x73) := by decide

theorem test_decode_rect : decode 0x0073003F7F080006 = .ok (.rect 0 8 127 63 0 0x73) := by decide

theorem test_decode_arc : decode 0x730020E0030A0A07 = .ok (.arc 10 10 3 224 32 0 0x73) := by decide

theorem test_decode_putc : decode 0x0000000000004108 = .ok (.putc 0x41) := by decide

theorem test_decode_setpg : decode 0x0000000000000809 = .ok (.setpg 8) := by decide

theorem test_decode_setcol : decode 0x000000000000780A = .ok (.setcol 120) := by decide

theorem test_decode_putcat : decode 0x00000000410A030B = .ok (.putcat 3 10 0x41) := by decide

theorem test_decode_illegal :
    decode 0 = .error (.illegalOpcode 0x00) ∧ decode 0x7305090C = .error (.illegalOpcode 0x0C) ∧
      decode 0xFF = .error (.illegalOpcode 0xFF) := by decide

/-- The byte sequence of R70, byte 0 first. -/
theorem test_decodeBytes_rect :
    decodeBytes [0x06, 0x00, 0x08, 0x7F, 0x3F, 0x00, 0x73, 0x00] = .ok (.rect 0 8 127 63 0 0x73, []) := by decide

/-- Seven bytes are no command word (R56, R60). -/
theorem test_decodeBytes_short : decodeBytes [0x06, 0x00, 0x08, 0x7F, 0x3F, 0x00, 0x73] = .error (.incompleteWord 7) := by
  decide

/-! ## One command each -/

/-- The framebuffer and `ERR` after a command, if it goes on. -/
def picture (o : Host.Outcome State Fault Refusal) : Option (Memory × Nat) :=
  match o with
  | .next s => some (s.fb, s.err.toNat)
  | _ => none

/-- `CUR_PAGE`, `CUR_COL`, `RET` and `ERR` after a command, if it goes on. -/
def registers (o : Host.Outcome State Fault Refusal) : Option (List Nat) :=
  match o with
  | .next s => some [s.curPage.toNat, s.curCol.toNat, s.ret.toNat, s.err.toNat]
  | _ => none

/-- The reset state with another framebuffer. -/
def withCells (fb : Memory) : State := { State.reset with fb := fb }

/-- The reset state with the cursor elsewhere. -/
def atCursor (page : BitVec 4) (col : Byte) : State := { State.reset with curPage := page, curCol := col }

/-- The fixture glyph ROM of 95_test_vectors.md section 0. -/
def fixture : GlyphRom := { lastIndex := 95, bits := fun i => BitVec.ofNat 7 ((i + 1) % 128) }

/-- The AND-mask defect does not occur: A5 with bit 1 set is A7, and cleared again A5 (S2). -/
theorem test_pix_clear : picture (exec (.pix 9 5 0x63) (withCells [(133, 0xA7)])) = some ([(133, 0xA5)], 0) := by decide

/-- V-PIX row 9: the row is reported before the column. -/
theorem test_pix_row_first : picture (exec (.pix 64 128 0x73) State.reset) = some ([], 1) := by decide

/-- V-POINT row 7: a cluster across pages 0 and 1. -/
theorem test_point_plus : picture (exec (.point 7 3 1 0x73) State.reset) =
    some ([(2, 0x80), (3, 0xC0), (4, 0x80), (131, 0x01)], 0) := by decide

/-- V-POINT row 4: south and east are rejected silently. -/
theorem test_point_corner : picture (exec (.point 63 127 1 0x73) State.reset) =
    some ([(1022, 0x80), (1023, 0xC0)], 0) := by decide

/-- V-HLINE row 2. -/
theorem test_hline_swapped : picture (exec (.hline 5 2 9 0 0x73) State.reset) =
    some ([(130, 2), (131, 2), (132, 2), (133, 2)], 0) := by decide

/-- V-VLINE row 1. -/
theorem test_vline_pages : picture (exec (.vline 7 6 10 0 0x73) State.reset) = some ([(7, 0xC0), (135, 0x07)], 0) := by
  decide

/-- V-VLINE row 11: column before row_b. -/
theorem test_vline_order : picture (exec (.vline 128 0 64 0 0x73) State.reset) = some ([], 2) := by decide

/-- V-LINE row 2: the reverse of row 1. -/
theorem test_line_reverse : picture (exec (.line 5 2 0 0 0 0x73) State.reset) =
    some ([(0, 1), (1, 1), (2, 2), (3, 2), (4, 4), (5, 4)], 0) := by decide

/-- V-LINE row 12: steep. -/
theorem test_line_steep : picture (exec (.line 0 0 1 7 0 0x73) State.reset) = some ([(0, 0x0F), (1, 0xF0)], 0) := by
  decide

/-- V-RECT row 1. -/
theorem test_rect_outline : picture (exec (.rect 2 1 5 3 0 0x73) State.reset) =
    some ([(2, 0x0E), (3, 0x0A), (4, 0x0A), (5, 0x0E)], 0) := by decide

/-- V-RECT row 6: only the left line is drawn, and the top line's code is reported. -/
theorem test_rect_partial : picture (exec (.rect 2 1 128 3 0 0x73) State.reset) = some ([(2, 0x0E)], 2) := by decide

/-- V-ARC-2: a quarter arc. -/
theorem test_arc_quarter : picture (exec (.arc 10 10 3 0 64 0 0x73) State.reset) =
    some ([(138, 0x20), (139, 0x20), (140, 0x10), (141, 0x0C)], 0) := by decide

/-- V-ARC-6: partly off the display; the first failing segment's code is reported. -/
theorem test_arc_partial : picture (exec (.arc 2 2 3 0 0 0 0x73) State.reset) =
    some ([(0, 0x10), (1, 0x10), (2, 0x10), (3, 0x10), (4, 0x0B), (5, 0x04)], 2) := by decide

/-- V-PUTC row 17, the second character: column 122 wraps to the next page. -/
theorem test_putc_wraps :
    picture (putcWith fixture 0x42 (atCursor 0 122)) =
      some ([(128, 0x2B), (129, 0x2C), (130, 0x2D), (131, 0x2E), (132, 0x2F)], 0) ∧
    registers (putcWith fixture 0x42 (atCursor 0 122)) = some [1, 6, 0x42, 0] := by decide

/-- V-PUTC row 13, the second line-feed: page 8 is taken to page 0. -/
theorem test_putc_lineFeed_at_limit :
    registers (putcWith fixture 0x0A (atCursor 8 0)) = some [1, 0, 0x0A, 0] := by decide

/-- V-CURSOR row 12: page 8 is rejected and kept. -/
theorem test_setpg_rejects : registers (exec (.setpg 8) (atCursor 8 0)) = some [8, 0, 0, 3] := by decide

/-- `SETPG 7` (R125). -/
theorem test_setpg_accepts : registers (exec (.setpg 7) State.reset) = some [7, 0, 0, 0] := by decide

/-- V-CURSOR row 7. -/
theorem test_setcol_accepts : registers (exec (.setcol 120) State.reset) = some [0, 120, 0, 0] := by decide

/-- V-CURSOR row 8. -/
theorem test_setcol_rejects : registers (exec (.setcol 121) State.reset) = some [0, 0, 0, 2] := by decide

/-- V-PUTCAT row 5: shift 7. -/
theorem test_putcat_spills : picture (putcatWith fixture 7 0 0x41 State.reset) =
    some ([(1, 0x80), (3, 0x80), (128, 0x13), (129, 0x13), (130, 0x14), (131, 0x14), (132, 0x15)], 0) := by decide

/-- V-PUTCAT row 10: row before column. -/
theorem test_putcat_row_first : picture (putcatWith fixture 57 121 0x41 State.reset) = some ([], 1) := by decide

/-- The reset memory is canonical. -/
theorem test_reset_wf : State.reset.fb.wf = true := by decide

/-- Writing 0x00 unlists a cell, and addresses stay in order. -/
theorem test_write_canonical :
    Memory.write (Memory.write (Memory.write [] 7 1) 3 2) 7 0 = [(3, 2)] := by decide

/-! ## Every obligation with hypotheses, met -/

/-- The state after `SETPG 7`, a line-feed, `SETCOL 120` and a failing command, in front of one more request. -/
def cornerState (q : Request) : State :=
  { fb := [(0, 1), (1023, 0x80)], curPage := 8, curCol := 120, err := 7, ret := 0x0A, requests := [q], replies := [] }

theorem cornerState_inv (q : Request) : (cornerState q).Inv :=
  ⟨Nat.le_refl 8, Nat.le_of_ble_eq_true rfl, fun _ => Nat.le_refl 120, Nat.le_refl 7, rfl⟩

theorem witness_DecodeInvertsEncode :
    (Instr.arc 255 255 255 255 255 255 255).wellFormed = true ∧ (Instr.setpg 0).wellFormed = true := by decide

theorem witness_DecodeReadsExactlyTheUsedBytes :
    decode 0xFFFFFFFF73050901 = .ok (.pix 9 5 0x73) ∧
      (0xFFFFFFFF73050901 : CommandWord) &&& (Instr.pix 9 5 0x73).usedMask =
        0x0000000073050901 &&& (Instr.pix 9 5 0x73).usedMask := by decide

theorem witness_OpcodeByteDecides :
    (byteField 0x01 0).toNat = 1 ∧ (byteField 0x0B 0).toNat = 11 ∧ (byteField 0x00 0).toNat = 0 ∧
      (byteField 0x0C 0).toNat = 12 ∧ 12 ≤ (byteField 0xFF 0).toNat := by decide

theorem witness_ByteSerialWordsAreReadBack :
    (bytesOfWord 0x0073003F7F080006)[0]? = some 0x06 ∧ (bytesOfWord 0x0073003F7F080006)[7]? = some 0x00 ∧
      (bytesOfWord 0x0073003F7F080006)[6]? = some 0x73 := by decide

theorem witness_AssembledWordsDecodeToTheirSource :
    SourceCommand.word ⟨.rect, [0, 8, 127, 63, 0, 0x73]⟩ = some 0x0073003F7F080006 ∧
      SourceCommand.word ⟨.setpg, [255]⟩ = some 0xFF09 := by decide

theorem witness_StepRunsTheDecodedCommand :
    (cornerState (.command 0x0709)).requests = .command 0x0709 :: [] ∧ decode 0x0709 = .ok (.setpg 7) ∧
      (Instr.setpg 7).wellFormed = true ∧ decodeTableWord 64 0x0709 = some (.setpg 7) := by decide

theorem witness_IllegalCommandsOnlyWriteErr :
    (cornerState (.command 0x000C)).requests = .command 0x000C :: [] ∧ 12 ≤ (byteField 0x000C 0).toNat ∧
      (cornerState (.command 0)).requests = .command 0 :: [] ∧ (byteField 0 0).toNat = 0 := by decide

theorem witness_RegReadReturnsItsRegister :
    (∀ n : RegNum, (cornerState (.regRead n)).requests = .regRead n :: []) ∧
      (atCursor 0 127).curCol.toNat ≤ 127 := by
  decide

theorem witness_ExportReadsReturnTheFrame :
    (cornerState (.fbRead 1023)).requests = .fbRead 1023 :: [] ∧ (7 < 8 ∧ 127 < 128) := by decide

theorem witness_ResetEventAndIdleStep :
    (cornerState .reset).requests = .reset :: [] ∧ State.reset.requests = [] := by decide

theorem witness_PixelAddressIsPageMajor :
    (63 < 64 ∧ 127 < 128 ∧ 7 < 8) ∧ (pixelAddr 63 127).addr = (pixelAddr 63 127).addr ∧
      (pixelAddr 63 127).bit = (pixelAddr 63 127).bit := by decide

theorem witness_CanonicalMemoryIsDeterminedByItsReads :
    Memory.wf [(0, 1), (1023, 0x80)] = true ∧
      (∀ a < 1024, Memory.read [(0, 1), (1023, 0x80)] a = Memory.read (Memory.write [(0, 1)] 1023 0x80) a) :=
  ⟨by decide, fun _ _ => rfl⟩

theorem witness_StepKeepsTheInvariants :
    (cornerState (.command 0x0709)).Inv ∧ ∃ t, step (cornerState (.command 0x0709)) = .next t :=
  ⟨cornerState_inv _, _, rfl⟩

theorem witness_InvariantStatesAlwaysProceed : (cornerState (.command 0x0A08)).Inv := cornerState_inv _

theorem witness_ReachableStatesKeepTheirRanges :
    State.ReachedBy [.command 0x780A] (atCursor 0 120) := ⟨1, rfl⟩

theorem witness_RegistersHaveOnlyTheirWriters :
    (∃ t, exec (.pix 63 127 0x73) (cornerState .reset) = .next t) ∧ (∃ t, exec (.setpg 7) (cornerState .reset) = .next t) ∧
      ∃ t, exec (.putc 0x1F) (cornerState .reset) = .next t :=
  ⟨⟨_, rfl⟩, ⟨_, rfl⟩, _, rfl⟩

theorem witness_RegistersHaveOnlyTheirReaders :
    (∀ c, Instr.line 0 0 127 63 1 0x63 ≠ .putc c) ∧ (∀ p, Instr.line 0 0 127 63 1 0x63 ≠ .setpg p) ∧
      (∀ c, Instr.line 0 0 127 63 1 0x63 ≠ .setcol c) ∧
      (∃ t, exec (.line 0 0 127 63 1 0x63) (cornerState .reset) = .next t) ∧
      (∃ t, exec (.setpg 7) (cornerState .reset) = .next t) ∧ (∃ t, exec (.setpg 8) (cornerState .reset) = .next t) ∧
      (∃ t, exec (.setcol 120) (cornerState .reset) = .next t) ∧ ∃ t, exec (.setcol 121) (cornerState .reset) = .next t :=
  ⟨fun _ h => Instr.noConfusion h, fun _ h => Instr.noConfusion h, fun _ h => Instr.noConfusion h,
    ⟨_, rfl⟩, ⟨_, rfl⟩, ⟨_, rfl⟩, ⟨_, rfl⟩, _, rfl⟩

theorem witness_FramebufferNeverDecidesAnOutcome : ∃ t, exec (.putc 0x0A) (cornerState .reset) = .next t :=
  ⟨_, rfl⟩

theorem witness_FailedSimpleCommandsHaveNoEffect :
    ∃ t, (Instr.setpg 8).mnemonic ≠ .rect ∧ (Instr.setpg 8).mnemonic ≠ .arc ∧
      exec (.setpg 8) (cornerState .reset) = .next t ∧ t.err ≠ 0 :=
  ⟨_, by decide, by decide, rfl, by decide⟩

theorem witness_DrawingIsIdempotent :
    ∃ t, (cornerState .reset).fb.wf = true ∧ (Instr.pix 0 0 0x73).mnemonic ≠ .putc ∧
      exec (.pix 0 0 0x73) (cornerState .reset) = .next t :=
  ⟨_, by decide, by decide, rfl⟩

theorem witness_PixPaintsItsPixel :
    validMode 0x73 = true ∧ validMode 0x63 = true ∧ (63 : Byte).toNat < 64 ∧ (127 : Byte).toNat < 128 := by decide

theorem witness_SetThenClearChangesOnePixel : (63 : Byte).toNat < 64 ∧ (127 : Byte).toNat < 128 := by decide

theorem witness_PointPaintsItsCluster :
    (1 : Byte).toNat ≤ 1 ∧ validMode 0x63 = true ∧ (63 : Byte).toNat < 64 ∧ (127 : Byte).toNat < 128 := by decide

theorem witness_ClusterIsAPlusClippedToTheDisplay :
    Point.onDisplay { row := 63, col := 0 } = true ∧ Point.onDisplay { row := 62, col := 0 } = true := by decide

theorem witness_PixAndPointReportTheirFirstFailingCheck :
    (4 : Byte) = (if validMode 0x53 = false then 4 else if 64 ≤ (64 : Byte).toNat then 1
      else if 128 ≤ (128 : Byte).toNat then 2 else 0) ∧
    (5 : Byte) = (if 1 < (2 : Byte).toNat then 5 else if validMode 0 = false then 4 else if 64 ≤ (64 : Byte).toNat then 1
      else if 128 ≤ (128 : Byte).toNat then 2 else 0) ∧
    (2 : Byte) = (if validMode 0x73 = false then 4 else if 64 ≤ (63 : Byte).toNat then 1
      else if 128 ≤ (128 : Byte).toNat then 2 else 0) ∧
    (4 : Byte) ≠ 0 ∧ (5 : Byte) ≠ 0 ∧ (2 : Byte) ≠ 0 := by decide

theorem witness_HlinePaintsItsSpan :
    (1 : Byte).toNat ≤ 1 ∧ validMode 0x73 = true ∧ (63 : Byte).toNat < 64 ∧ (127 : Byte).toNat < 128 ∧
      (0 : Byte).toNat < 128 := by decide

theorem witness_VlinePaintsItsSpan :
    (1 : Byte).toNat ≤ 1 ∧ validMode 0x63 = true ∧ (127 : Byte).toNat < 128 ∧ (63 : Byte).toNat < 64 ∧
      (0 : Byte).toNat < 64 := by decide

theorem witness_LinePaintsItsWalk :
    (0 : Byte).toNat ≤ 1 ∧ validMode 0x73 = true ∧ (127 : Byte).toNat < 128 ∧ (63 : Byte).toNat < 64 ∧
      (0 : Byte).toNat < 128 ∧ (0 : Byte).toNat < 64 := by decide

/-- One failing check of each kind, for HLINE, VLINE and LINE in turn: column b, row b, column of endpoint 2. -/
theorem witness_LinesReportTheirFirstFailingCheck :
    (2 : Byte) = (if 1 < (0 : Byte).toNat then 5 else if validMode 0x73 = false then 4
      else if 64 ≤ (63 : Byte).toNat then 1 else if 128 ≤ (127 : Byte).toNat then 2
      else if 128 ≤ (128 : Byte).toNat then 2 else 0) ∧
    (1 : Byte) = (if 1 < (1 : Byte).toNat then 5 else if validMode 0x63 = false then 4
      else if 64 ≤ (63 : Byte).toNat then 1 else if 128 ≤ (127 : Byte).toNat then 2
      else if 64 ≤ (64 : Byte).toNat then 1 else 0) ∧
    (2 : Byte) = (if 1 < (1 : Byte).toNat then 5 else if validMode 0x63 = false then 4
      else if 64 ≤ (0 : Byte).toNat then 1 else if 128 ≤ (0 : Byte).toNat then 2
      else if 64 ≤ (63 : Byte).toNat then 1 else if 128 ≤ (128 : Byte).toNat then 2 else 0) ∧
    (1 : Byte) ≠ 0 ∧ (2 : Byte) ≠ 0 := by decide

theorem witness_LineWalkHasNoGaps :
    (linePoints 0 0 5 2)[4]? = some { row := 2, col := 4 } ∧ (linePoints 0 0 5 2)[5]? = some { row := 2, col := 5 } ∧
      (linePoints 0 0 2 5)[0]? = some { row := 0, col := 0 } ∧ (linePoints 0 0 2 5)[1]? = some { row := 1, col := 0 } ∧
      ({ row := 1, col := 3 } : Point) ∈ linePoints 0 0 5 2 := by decide

/-- V-LINE row 1, its point 2: the accumulator 2 − 2·2 has called for one step, as the trace shows. -/
theorem witness_LineWalkHasNoGaps_minorSteps :
    (linePoints 0 0 5 2)[2]? = some { row := 1, col := 2 } ∧ IsMinorSteps 5 2 2 1 ∧
      (linePoints 0 0 2 5)[2]? = some { row := 2, col := 1 } :=
  ⟨by decide, ⟨by decide, by decide⟩, by decide⟩

theorem witness_LineIsSymmetric :
    (127 : Byte).toNat < 128 ∧ (63 : Byte).toNat < 64 ∧ (0 : Byte).toNat < 128 ∧ (0 : Byte).toNat < 64 := by decide

theorem witness_RectPaintsItsBorder :
    (1 : Byte).toNat ≤ 1 ∧ validMode 0x73 = true ∧ (127 : Byte).toNat < 128 ∧ (63 : Byte).toNat < 64 ∧
      (0 : Byte).toNat < 128 ∧ (0 : Byte).toNat < 64 := by decide

theorem witness_RectIsDrawnInPart :
    1 < (2 : Byte).toNat ∧ ((1 : Byte).toNat ≤ 1 ∧ validMode 0x53 = false) ∧
      ((0 : Byte).toNat ≤ 1 ∧ validMode 0x73 = true ∧ (127 : Byte).toNat < 128 ∧ (63 : Byte).toNat < 64 ∧
        64 ≤ (64 : Byte).toNat ∧ 128 ≤ (128 : Byte).toNat) := by decide

theorem witness_SineFunctionsFollowTheQuadrants : 63 < 64 := by decide

theorem witness_SweepAndStepsFollowTheirFormulas :
    ((255 : Byte).toNat > (0 : Byte).toNat) ∧ ((0 : Byte).toNat ≤ (0 : Byte).toNat) ∧ 255 ≤ 255 ∧ 256 ≤ 256 ∧
      sweep 0 0 = 256 ∧ sweep 224 32 = 64 := by decide

theorem witness_ArcSamplesRunFromStartToEnd : (77 : Byte) = 77 := by decide

theorem witness_ArcSamplesStayNearTheCircle :
    ((31 : Byte).toNat ≤ 31 ∧ (155 : Int) = 155) ∧ ((63 : Byte).toNat ≤ 63 ∧ (168 : Int) = 168) ∧
      (961 : Int) = ((arcSample 0 0 31 0 256 97 0).col - (0 : Byte).toNat) ^ 2 +
        ((arcSample 0 0 31 0 256 97 0).row - (0 : Byte).toNat) ^ 2 := by decide

theorem witness_ArcRejectsThicknessThenMode :
    1 < (2 : Byte).toNat ∧ (1 : Byte).toNat ≤ 1 ∧ validMode 0 = false := by decide

theorem witness_ArcPaintsItsSegmentsOnTheDisplay : (1 : Byte).toNat ≤ 1 ∧ validMode 0x63 = true := by decide

theorem witness_ArcThatFitsSucceeds :
    (1 : Byte).toNat ≤ 1 ∧ validMode 0x73 = true ∧ (31 : Byte).toNat ≤ (31 : Byte).toNat ∧
      (96 : Byte).toNat + (31 : Byte).toNat < 128 ∧ (31 : Byte).toNat ≤ (32 : Byte).toNat ∧
      (32 : Byte).toNat + (31 : Byte).toNat < 64 ∧ (31 : Byte).toNat ≤ (96 : Byte).toNat := by decide

theorem witness_PutcOfAnUnsupportedCharacter : (0x1F : Byte) ≠ 0x0A ∧ (0x1F : Byte).toNat < 0x20 := by decide

theorem witness_LineFeedPadsThePage : (cornerState .reset).curPage.toNat ≤ 8 := by decide

/-- The space is supported whatever the glyph ROM, and so it has a glyph. -/
theorem space_supported :
    0x20 ≤ (0x20 : Byte).toNat ∧ (0x20 : Byte).toNat ≤ Config.glyphRom.last ∧
      ∃ g, glyphBytes Config.glyphRom 0x20 = some g := by
  have hle : (0x20 : Byte).toNat ≤ Config.glyphRom.last := (glyphLast_bounds Config.glyphRom).1
  exact ⟨by decide, hle, Option.isSome_iff_exists.mp ((glyphBytes_isSome _ _).mpr ⟨by decide, hle⟩)⟩

/-- At the last column that does not wrap and the first that does, at the page limit. -/
theorem witness_PutcDrawsItsGlyphAtTheCursor :
    (0x20 ≤ (0x20 : Byte).toNat ∧ (0x20 : Byte).toNat ≤ Config.glyphRom.last) ∧ (atCursor 8 121).curPage.toNat ≤ 8 ∧
      (atCursor 8 122).curPage.toNat ≤ 8 :=
  ⟨⟨space_supported.1, space_supported.2.1⟩, by decide, by decide⟩

theorem witness_PutcStopsOnlyOnAPageThatDoesNotExist :
    9 ≤ (atCursor 9 0).curPage.toNat ∧ (atCursor 8 0).curPage.toNat ≤ 8 ∧ 0x20 ≤ (0x20 : Byte).toNat ∧
      (0x20 : Byte).toNat ≤ Config.glyphRom.last :=
  ⟨by decide, by decide, space_supported.1, space_supported.2.1⟩

theorem witness_SetpgStoresPagesBelowEight :
    (7 : Byte).toNat < 8 ∧ 8 ≤ (8 : Byte).toNat ∧ byteField 0xFF09 0 = 0x09 := by decide

theorem witness_SetcolStoresColumnsUpTo120 :
    (120 : Byte).toNat ≤ 120 ∧ 121 ≤ (121 : Byte).toNat ∧ byteField 0xFF0A 0 = 0x0A := by decide

/-- A row with a spill and the last row without one. -/
theorem witness_PutcatDrawsItsShiftedGlyph :
    (55 : Byte).toNat ≤ 56 ∧ (56 : Byte).toNat ≤ 56 ∧ (120 : Byte).toNat ≤ 120 ∧ 0x20 ≤ (0x20 : Byte).toNat ∧
      (0x20 : Byte).toNat ≤ Config.glyphRom.last :=
  ⟨by decide, by decide, by decide, space_supported.1, space_supported.2.1⟩

theorem witness_PutcatPlacesGlyphPixels :
    (56 : Byte).toNat ≤ 56 ∧ (120 : Byte).toNat ≤ 120 ∧ ∃ g, glyphBytes Config.glyphRom 0x20 = some g :=
  ⟨by decide, by decide, space_supported.2.2⟩

/-- The row, the column and the character, each the first to fail. -/
theorem witness_PutcatReportsItsFirstFailingCheck :
    (1 : Byte) = (if 57 ≤ (57 : Byte).toNat then 1 else if 121 ≤ (121 : Byte).toNat then 2
      else if (0x0A : Byte).toNat < 0x20 ∨ Config.glyphRom.last < (0x0A : Byte).toNat then 6 else 0) ∧
    (2 : Byte) = (if 57 ≤ (56 : Byte).toNat then 1 else if 121 ≤ (121 : Byte).toNat then 2
      else if (0x0A : Byte).toNat < 0x20 ∨ Config.glyphRom.last < (0x0A : Byte).toNat then 6 else 0) ∧
    (6 : Byte) = (if 57 ≤ (56 : Byte).toNat then 1 else if 121 ≤ (120 : Byte).toNat then 2
      else if (0x0A : Byte).toNat < 0x20 ∨ Config.glyphRom.last < (0x0A : Byte).toNat then 6 else 0) ∧
    (1 : Byte) ≠ 0 ∧ (2 : Byte) ≠ 0 ∧ (6 : Byte) ≠ 0 := by
  refine ⟨rfl, rfl, ?_, by decide, by decide, by decide⟩
  rw [if_neg (by decide), if_neg (by decide), if_pos (Or.inl (by decide))]

theorem witness_PutcatOnAPageRowMatchesPutc :
    7 < 8 ∧ (56 : Byte).toNat = 8 * 7 ∧ (120 : Byte).toNat ≤ 120 ∧ 0x20 ≤ (0x20 : Byte).toNat ∧
      (0x20 : Byte).toNat ≤ Config.glyphRom.last :=
  ⟨by decide, by decide, by decide, space_supported.1, space_supported.2.1⟩

/-- The space drawn over a set pixel. -/
theorem witness_GlyphsNeverClearAPixel :
    ∃ t, (Instr.putc 0x20).mnemonic = .putc ∧ Instr.putc 0x20 ≠ .putc 0x0A ∧
      exec (.putc 0x20) (cornerState .reset) = .next t ∧ (cornerState .reset).fb.pixel 0 0 = true := by
  obtain ⟨g, hg⟩ := space_supported.2.2
  obtain ⟨fb, hfb, -⟩ := orBlit_spec (page := 0) (by decide) g 120 (cornerState .reset).fb
    (by rw [glyphBytes_length hg]; decide)
  have hput : putGlyph g { cornerState .reset with ret := 0x20 } =
      .ok { cornerState .reset with ret := 0x20, fb := fb, curPage := 0, curCol := 126 } := by
    simp only [putGlyph, show glyphCursor (cornerState .reset).curPage.toNat (cornerState .reset).curCol.toNat = (0, 120)
      from by decide, hfb]
    rfl
  have hexec : exec (.putc 0x20) (cornerState .reset) =
      .next ({ cornerState .reset with ret := 0x20, fb := fb, curPage := 0, curCol := 126 }.finish .ok) := by
    simp only [exec, execPutc, putcWith, if_neg (show ¬(0x20 : Byte) = 0x0A by decide), hg, hput, deliver_ok]
  exact ⟨_, rfl, by decide, hexec, by decide⟩

end Sys2Proof.Tests
end

section
/-! The reset state (10_state.md R32): what its export port and its registers read. -/

namespace Sys2Proof.Machine

/-- The framebuffer of the reset state lists no cell, and a cell that is not listed holds 0x00. -/
@[simp] theorem fbRead_reset (a : FbAddr) : fbRead a State.reset = 0 := Memory.read_nil a.toNat

@[simp] theorem reset_curPage : State.reset.curPage = 0 := rfl
@[simp] theorem reset_curCol : State.reset.curCol = 0 := rfl
@[simp] theorem reset_err : State.reset.err = 0 := rfl
@[simp] theorem reset_ret : State.reset.ret = 0 := rfl

/-- Settles O12: the empty framebuffer reads 0x00 at every address, and the four registers are fields of the reset
state. -/
theorem resetLeavesTheStatedValues : Obligations.ResetLeavesTheStatedValues :=
  ⟨fbRead_reset, reset_curPage, reset_curCol, reset_err, reset_ret⟩

end Sys2Proof.Machine
end

section
/-! The byte-serial form of a command word (20_memory.md R56). -/

namespace Sys2Proof

@[simp] theorem length_bytesOfWord (w : CommandWord) : (bytesOfWord w).length = 8 := by
  rw [bytesOfWord, List.length_map, List.length_range]

/-- A byte-serial host sends byte 0 first. -/
theorem getElem?_bytesOfWord (w : CommandWord) {k : Nat} (hk : k < 8) :
    (bytesOfWord w)[k]? = some (byteField w k) := by
  rw [bytesOfWord, List.getElem?_map, List.getElem?_range hk, Option.map_some]

/-- The packed bytes of a word have the word's byte fields, so they are the word. -/
@[simp] theorem packBytes_bytesOfWord (w : CommandWord) : packBytes (bytesOfWord w) = w := by
  refine commandWord_ext fun k hk => ?_
  rw [byteField_packBytes _ hk, List.getD_eq_getElem?_getD, getElem?_bytesOfWord w hk, Option.getD_some]

/-- A stream that holds a whole word gives that word's command and leaves what follows the eight bytes. -/
theorem decodeBytes_of_length_ge {bytes : List Byte} (h : 8 ≤ bytes.length) :
    decodeBytes bytes = (decode (packBytes (bytes.take 8))).map fun i => (i, bytes.drop 8) := by
  rw [decodeBytes, if_neg (Nat.not_lt.mpr h)]
  cases decode (packBytes (bytes.take 8)) with
  | ok i => rfl
  | error e => rfl

/-- The first eight bytes of the stream are the word's, whatever follows them. -/
theorem decodeBytes_bytesOfWord_append (w : CommandWord) (rest : List Byte) :
    decodeBytes (bytesOfWord w ++ rest) = (decode w).map fun i => (i, rest) := by
  have hlen : 8 ≤ (bytesOfWord w ++ rest).length := by simp
  rw [decodeBytes_of_length_ge hlen, List.take_left' (length_bytesOfWord w),
    List.drop_left' (length_bytesOfWord w), packBytes_bytesOfWord]

/-- Settles O5: the bytes of a word are its byte fields in order, so packing them gives the word, and the byte decoder,
which packs the first eight bytes of its stream, decodes the word. -/
theorem byteSerialWordsAreReadBack : Obligations.ByteSerialWordsAreReadBack := by
  intro w rest
  refine ⟨packBytes_bytesOfWord w, fun k hk => getElem?_bytesOfWord w hk, ?_⟩
  rw [decodeBytes_bytesOfWord_append]
  cases decode w with
  | ok i => rfl
  | error e => rfl

end Sys2Proof
end

section
/-! The linear address of a framebuffer cell (20_memory.md R42) and the export port (R50, R51). -/

namespace Sys2Proof.Machine

/-- Every address is that of the cell whose page and column it splits into. -/
theorem cellAddr_div_mod (a : FbAddr) : cellAddr (a.toNat / 128) (a.toNat % 128) = a := by
  rw [cellAddr, Nat.div_add_mod', BitVec.ofNat_toNat, BitVec.setWidth_eq]

/-- The step that accepts an export read: one reply byte, and nothing else of the state. -/
theorem step_fbRead {s : State} {a : FbAddr} {rest : List Request} (h : s.requests = .fbRead a :: rest) :
    step s = .next { s with requests := rest, replies := s.replies ++ [fbRead a s] } := by
  rw [step_of_cons h]
  rfl

@[simp] theorem length_exportFrame (s : State) : (exportFrame s).length = 1024 := by
  rw [exportFrame, exportOrder, List.length_map, List.length_map, List.length_range]

/-- The frame holds the byte of linear address `n` at position `n`. -/
theorem getElem?_exportFrame (s : State) {n : Nat} (hn : n < 1024) : (exportFrame s)[n]? = some (s.fb.read n) := by
  have haddr : (BitVec.ofNat 10 n).toNat = n := (BitVec.toNat_ofNat n 10).trans (Nat.mod_eq_of_lt hn)
  rw [exportFrame, exportOrder, List.getElem?_map, List.getElem?_map, List.getElem?_range hn, Option.map_some,
    Option.map_some, fbRead, haddr]

/-- Bit `bit` of the byte of page `page`, column `col` is the pixel of row `8 * page + bit` in that column (R43). -/
theorem pixel_page_bit (fb : Memory) {page col bit : Nat} (hp : page < 8) (hc : col < 128) (hb : bit < 8) :
    fb.pixel (page * 8 + bit) col = (fb.read (page * 128 + col)).getLsbD bit := by
  have hpage : (page * 8 + bit) / 8 = page := by omega
  have hbit : (page * 8 + bit) % 8 = bit := by omega
  rw [Memory.pixel, pixelAddr_toNat (by omega) hc, hpage]
  exact congrArg _ hbit

/-- Settles O11: a step that accepts an export read only appends its reply, and the frame lists the bytes by their linear
address, page by page. -/
theorem exportReadsReturnTheFrame : Obligations.ExportReadsReturnTheFrame := by
  refine ⟨fun s a rest h => ?_, fun s => ⟨length_exportFrame s, fun page col bit hp hc hb => ?_⟩⟩
  · rw [cellAddr_div_mod]
    exact step_fbRead h
  · exact ⟨s.fb.read (page * 128 + col), getElem?_exportFrame s (by omega), (pixel_page_bit s.fb hp hc hb).symm⟩

end Sys2Proof.Machine
end

section
/-! The pixel addresser as bit fields of the row and the column (20_memory.md R44). -/

namespace Sys2Proof.Machine

@[simp] theorem pixelAddr_page (row col : Nat) : (pixelAddr row col).page = row / 8 := rfl
@[simp] theorem pixelAddr_bit (row col : Nat) : (pixelAddr row col).bit = row % 8 := rfl
@[simp] theorem pixelAddr_mask (row col : Nat) : (pixelAddr row col).mask = (1 : Byte) <<< (row % 8) := rfl

/-- `row[5:3]` is the page. -/
theorem rowBits_page {row : Nat} (hr : row < 64) : ((BitVec.ofNat 6 row).extractLsb' 3 3).toNat = row / 8 := by
  rw [BitVec.extractLsb'_toNat, BitVec.toNat_ofNat, Nat.shiftRight_eq_div_pow]
  omega

/-- `row[2:0]` is the bit in the page byte, for every row: what is above its low six bits does not count. -/
theorem rowBits_bit (row : Nat) : ((BitVec.ofNat 6 row).extractLsb' 0 3).toNat = row % 8 := by
  rw [BitVec.extractLsb'_toNat, BitVec.toNat_ofNat, Nat.shiftRight_zero]
  omega

/-- The address is the concatenation `{row[5:3], col[6:0]}`. -/
theorem pixelAddr_addr_eq_append {row col : Nat} (hr : row < 64) (hc : col < 128) :
    (pixelAddr row col).addr =
      ((BitVec.ofNat 6 row).extractLsb' 3 3 ++ (BitVec.ofNat 7 col).extractLsb' 0 7 : BitVec (3 + 7)) := by
  have hcol : ((BitVec.ofNat 7 col).extractLsb' 0 7).toNat = col := by
    rw [BitVec.extractLsb'_eq_self]
    exact (BitVec.toNat_ofNat col 7).trans (Nat.mod_eq_of_lt hc)
  apply BitVec.eq_of_toNat_eq
  rw [pixelAddr_toNat hr hc, BitVec.toNat_append, rowBits_page hr, hcol,
    ← Nat.shiftLeft_add_eq_or_of_lt hc, Nat.shiftLeft_eq]

/-- Settles O14: page and bit are quotient and remainder of the row by 8, which are the bit fields `row[5:3]` and
`row[2:0]`; from the address, its page and its column can be read back, so a pixel is known by its address and bit. -/
theorem pixelAddressIsPageMajor : Obligations.PixelAddressIsPageMajor := by
  refine ⟨fun row col hr hc => ?_, fun r c r' c' hr hc hr' hc' ha hb => ?_, rfl, rfl⟩
  · exact ⟨pixelAddr_page row col, pixelAddr_bit row col, (rowBits_page hr).symm, (rowBits_bit row).symm,
      pixelAddr_addr_eq_append hr hc, pixelAddr_toNat hr hc,
      fun b hb => mask_getLsbD (Nat.mod_lt row (by decide)) hb⟩
  · exact pixelAddr_inj hr hc hr' hc' (congrArg BitVec.toNat ha) hb

end Sys2Proof.Machine
end

section
/-! The bytes a command occupies in its word (30_encoding.md R60, R63): decoding compares them and looks at no other
byte (R65). -/

namespace Sys2Proof

/-! ## Masks of whole bytes -/

theorem byteField_and (w v : CommandWord) (k : Nat) : byteField (w &&& v) k = byteField w k &&& byteField v k :=
  BitVec.extractLsb'_and

/-- The first bytes of a packed word are the bytes that were packed. -/
theorem take_bytesOfWord_packBytes {bs : List Byte} (h : bs.length ≤ 8) :
    (bytesOfWord (packBytes bs)).take bs.length = bs := by
  apply List.ext_getElem?
  intro k
  by_cases hk : k < bs.length
  · rw [List.getElem?_take_of_lt hk, getElem?_bytesOfWord _ (by omega), byteField_packBytes bs (by omega),
      List.getElem?_eq_getElem hk, List.getD_eq_getElem bs 0 hk]
  · rw [List.getElem?_take_eq_none (by omega), List.getElem?_eq_none (by omega)]

/-- Packing loses no byte: up to eight bytes can be read back from the word. -/
theorem packBytes_inj {bs bs' : List Byte} (hlen : bs.length = bs'.length) (h8 : bs.length ≤ 8) :
    packBytes bs = packBytes bs' ↔ bs = bs' := by
  refine ⟨fun h => ?_, congrArg packBytes⟩
  rw [← take_bytesOfWord_packBytes h8, h, hlen]
  exact take_bytesOfWord_packBytes (hlen ▸ h8)

/-- Masking with `n` bytes 0xFF keeps the first `n` bytes of a word and makes the others 0x00. -/
theorem and_packBytes_replicate (w : CommandWord) (n : Nat) :
    w &&& packBytes (List.replicate n 0xFF) = packBytes ((bytesOfWord w).take n) := by
  refine commandWord_ext fun k hk => ?_
  rw [byteField_and, byteField_packBytes _ hk, byteField_packBytes _ hk, List.getD_eq_getElem?_getD,
    List.getD_eq_getElem?_getD, List.getElem?_replicate, List.getElem?_take]
  by_cases hkn : k < n
  · rw [if_pos hkn, if_pos hkn, getElem?_bytesOfWord w hk]
    exact BitVec.and_allOnes
  · rw [if_neg hkn, if_neg hkn]
    exact BitVec.and_zero

/-! ## The used bytes of a command -/

/-- A command carries as many operand bytes as its format names (R61). -/
@[simp] theorem length_operandBytes (i : Instr) : i.operandBytes.length = i.mnemonic.arity := by
  cases i <;> rfl

/-- No format names more than the seven operand bytes of a word (R60). -/
theorem arity_le (mn : Mnemonic) : mn.arity ≤ 7 := by
  cases mn <;> decide

/-- A word has room for the opcode byte and the operand bytes of every format. -/
theorem length_take_bytesOfWord (w : CommandWord) (mn : Mnemonic) :
    ((bytesOfWord w).take (mn.arity + 1)).length = mn.arity + 1 := by
  rw [List.length_take, length_bytesOfWord]
  exact Nat.min_eq_left (Nat.succ_le_succ (arity_le mn))

/-- Masking with a command's used bytes gives its word exactly when the used bytes are its opcode and its operands. -/
theorem and_usedMask_eq_encode_iff (w : CommandWord) (i : Instr) :
    w &&& i.usedMask = encode i ↔
      (bytesOfWord w).take (i.mnemonic.arity + 1) = i.mnemonic.opcode :: i.operandBytes := by
  have hlen := length_take_bytesOfWord w i.mnemonic
  rw [Instr.usedMask, and_packBytes_replicate, encode]
  refine packBytes_inj ?_ ?_
  · rw [hlen, List.length_cons, length_operandBytes]
  · rw [hlen]
    exact Nat.succ_le_succ (arity_le i.mnemonic)

/-- The word of a command holds 0x00 in every byte beyond its format. -/
theorem encode_and_usedMask (i : Instr) : encode i &&& i.usedMask = encode i := by
  have hlen : (i.mnemonic.opcode :: i.operandBytes).length = i.mnemonic.arity + 1 := by
    rw [List.length_cons, length_operandBytes]
  rw [and_usedMask_eq_encode_iff, encode, ← hlen]
  exact take_bytesOfWord_packBytes (hlen ▸ Nat.succ_le_succ (arity_le i.mnemonic))

/-! ## Decoding -/

/-- A word decodes to a command exactly when its first bytes are the command's opcode and operands (R63, R64). Each arm of
the decoder fixes the opcode byte and takes its operands from the bytes after it; conversely the opcode selects the arm. -/
theorem decode_eq_ok_iff (w : CommandWord) (i : Instr) :
    decode w = .ok i ↔ (bytesOfWord w).take (i.mnemonic.arity + 1) = i.mnemonic.opcode :: i.operandBytes := by
  constructor
  · intro h
    simp only [decode] at h
    split at h <;> cases h <;> exact congrArg (· :: _) (BitVec.eq_of_toNat_eq ‹_›)
  · intro h
    have hop : byteField w 0 = i.mnemonic.opcode := (List.cons.inj h).1
    have hargs := (List.cons.inj h).2
    unfold decode
    rw [hop]
    cases i <;> cases hargs <;> rfl

/-- Decoding a word and masking it to a command's used bytes compare the same bytes with the same list. -/
theorem decode_eq_ok_iff_and_usedMask (w : CommandWord) (i : Instr) :
    decode w = .ok i ↔ w &&& i.usedMask = encode i :=
  (decode_eq_ok_iff w i).trans (and_usedMask_eq_encode_iff w i).symm

/-- The opcode bytes outside R63 name no command (R64, R66). -/
theorem decode_of_illegal {w : CommandWord} (h : (byteField w 0).toNat = 0 ∨ 12 ≤ (byteField w 0).toNat) :
    decode w = .error (.illegalOpcode (byteField w 0)) := by
  simp only [decode]
  split
  case h_12 => rfl
  all_goals omega

end Sys2Proof

namespace Sys2Proof.Machine

/-! ## Running a command word -/

theorem runCommand_of_ok {w : CommandWord} {i : Instr} (h : decode w = .ok i) (s : State) :
    runCommand w s = exec i s := by
  rw [runCommand, h]

theorem runCommand_of_error {w : CommandWord} {e : DecodeError} (h : decode w = .error e) (s : State) :
    runCommand w s = illegalCommand s := by
  rw [runCommand, h]

/-- Settles O3: decoding is the comparison of the masked word with the command's own word, so words that agree under the
mask run the same command; and the command's own word is unchanged by the mask. -/
theorem decodeReadsExactlyTheUsedBytes : Obligations.DecodeReadsExactlyTheUsedBytes := by
  refine ⟨decode_eq_ok_iff_and_usedMask, fun w w' i h hmask s => ?_, fun i => ?_⟩
  · have h' : decode w' = .ok i := by
      rw [decode_eq_ok_iff_and_usedMask, ← hmask]
      exact (decode_eq_ok_iff_and_usedMask w i).mp h
    rw [runCommand_of_ok h, runCommand_of_ok h']
  · rw [← encode_and_usedMask, BitVec.and_assoc, BitVec.and_not_self]
    exact BitVec.and_zero

/-- Settles O9: an illegal opcode byte decodes to no command, and the step that accepts the word only writes the code. -/
theorem illegalCommandsOnlyWriteErr : Obligations.IllegalCommandsOnlyWriteErr := by
  refine ⟨fun s w rest h hop => ?_, rfl⟩
  rw [step_of_cons h]
  exact runCommand_of_error (decode_of_illegal hop) _

end Sys2Proof.Machine
end

section
/-! The sine functions (42_shape.md R102 to R104): the angle's quadrant and index, the range of the quarter wave, and the
range of the full circle. -/

namespace Sys2Proof.Machine

/-! ## The quarter wave -/

theorem sinTab_nonneg (i : Nat) : 0 ≤ sinTab i := Int.natCast_nonneg _

/-- No entry of the table exceeds 64, and beyond the table `sinTab` is 0. -/
theorem sinTab_le (i : Nat) : sinTab i ≤ 64 := by
  have hentries : ∀ n ∈ sinTable, n ≤ 64 := by decide
  have hentry : sinTable.getD i 0 ≤ 64 := by
    by_cases hi : i < sinTable.length
    · rw [List.getD_eq_getElem sinTable 0 hi]
      exact hentries _ (List.getElem_mem hi)
    · rw [List.getD_eq_default sinTable 0 (Nat.le_of_not_lt hi)]
      exact Nat.zero_le 64
  exact Int.ofNat_le.mpr hentry

/-! ## Quadrant and index of an angle -/

/-- `a[7:6]` of the angle `64 * q + i` is the quadrant `q`. -/
theorem angle_quadrant {q i : Nat} (hq : q < 4) (hi : i < 64) :
    ((BitVec.ofNat 8 (64 * q + i)).extractLsb' 6 2).toNat = q := by
  rw [BitVec.extractLsb'_toNat, BitVec.toNat_ofNat, Nat.shiftRight_eq_div_pow]
  omega

/-- `a[5:0]` of the angle `64 * q + i` is the index `i`, for every `q`. -/
theorem angle_index (q : Nat) {i : Nat} (hi : i < 64) :
    ((BitVec.ofNat 8 (64 * q + i)).extractLsb' 0 6).toNat = i := by
  rw [BitVec.extractLsb'_toNat, BitVec.toNat_ofNat, Nat.shiftRight_zero]
  omega

section Quadrants

variable {i : Nat} (hi : i < 64)
include hi

/-- Quadrant 0 rises along the table. -/
theorem dsin_ofNat : dsin (BitVec.ofNat 8 i) = sinTab i := by
  have hquadrant := angle_quadrant (q := 0) (by decide) hi
  have hindex := angle_index 0 hi
  rw [Nat.mul_zero, Nat.zero_add] at hquadrant hindex
  simp only [dsin, hquadrant, hindex]

/-- Quadrant 1 is reflected. -/
theorem dsin_ofNat_64_add : dsin (BitVec.ofNat 8 (64 + i)) = sinTab (64 - i) := by
  have hquadrant := angle_quadrant (q := 1) (by decide) hi
  have hindex := angle_index 1 hi
  simp only [dsin, hquadrant, hindex]

/-- Quadrant 2 is negated. -/
theorem dsin_ofNat_128_add : dsin (BitVec.ofNat 8 (128 + i)) = -sinTab i := by
  have hquadrant := angle_quadrant (q := 2) (by decide) hi
  have hindex := angle_index 2 hi
  simp only [dsin, hquadrant, hindex]

/-- Quadrant 3 is reflected and negated. -/
theorem dsin_ofNat_192_add : dsin (BitVec.ofNat 8 (192 + i)) = -sinTab (64 - i) := by
  have hquadrant := angle_quadrant (q := 3) (by decide) hi
  have hindex := angle_index 3 hi
  simp only [dsin, hquadrant, hindex]

end Quadrants

/-! ## The full circle -/

/-- Every quadrant takes an entry of the quarter wave or its negative. -/
theorem dsin_eq_sinTab_or_neg (a : Byte) : ∃ i, dsin a = sinTab i ∨ dsin a = -sinTab i := by
  unfold dsin
  split
  case h_1 => exact ⟨_, Or.inl rfl⟩
  case h_2 => exact ⟨_, Or.inl rfl⟩
  case h_3 => exact ⟨_, Or.inr rfl⟩
  case h_4 => exact ⟨_, Or.inr rfl⟩

theorem dsin_bounds (a : Byte) : -64 ≤ dsin a ∧ dsin a ≤ 64 := by
  obtain ⟨i, hi⟩ := dsin_eq_sinTab_or_neg a
  have hnonneg := sinTab_nonneg i
  have hle := sinTab_le i
  omega

/-- The cosine's angle `a + 64`, an addition of bytes, is the sum mod 256 (R103). -/
theorem dcos_eq_dsin_ofNat (a : Byte) : dcos a = dsin (BitVec.ofNat 8 ((a.toNat + 64) % 256)) := by
  have hangle : a + 64 = BitVec.ofNat 8 ((a.toNat + 64) % 256) := by
    apply BitVec.eq_of_toNat_eq
    rw [BitVec.toNat_add, BitVec.toNat_ofNat]
    exact (Nat.mod_mod _ _).symm
  rw [dcos, hangle]

/-- Settles O41: the quadrant and the index of an angle are its bit fields, every quadrant takes its values from the
quarter wave up to sign, and the published values are evaluated. -/
theorem sineFunctionsFollowTheQuadrants : Obligations.SineFunctionsFollowTheQuadrants := by
  refine ⟨fun i hi => ?_, fun a => ?_, by decide, by decide, by decide, by decide, by decide, by decide⟩
  · exact ⟨dsin_ofNat hi, dsin_ofNat_64_add hi, dsin_ofNat_128_add hi, dsin_ofNat_192_add hi⟩
  · obtain ⟨hlower, hupper⟩ := dsin_bounds a
    exact ⟨hlower, hupper, dcos_eq_dsin_ofNat a⟩

end Sys2Proof.Machine
end

section
/-! The cursor setters (43_text.md R125, R126): which words they are, and how each of their two outcomes changes the
state. -/

namespace Sys2Proof

/-- The opcode byte 0x09 names SETPG, whose operand is the byte after it (R63). -/
theorem decode_setpg {w : CommandWord} (h : byteField w 0 = 0x09) : decode w = .ok (.setpg (byteField w 1)) :=
  (decode_eq_ok_iff w _).mpr (congrArg (· :: [byteField w 1]) h)

/-- The opcode byte 0x0A names SETCOL, whose operand is the byte after it (R63). -/
theorem decode_setcol {w : CommandWord} (h : byteField w 0 = 0x0A) : decode w = .ok (.setcol (byteField w 1)) :=
  (decode_eq_ok_iff w _).mpr (congrArg (· :: [byteField w 1]) h)

end Sys2Proof

namespace Sys2Proof.Machine

/-! ## SETPG -/

theorem exec_setpg_of_lt {p : Byte} (h : p.toNat < 8) (s : State) :
    exec (.setpg p) s = .next { s with curPage := p.setWidth 4, err := 0 } :=
  if_neg (Nat.not_le.mpr h)

theorem exec_setpg_of_ge {p : Byte} (h : 8 ≤ p.toNat) (s : State) : exec (.setpg p) s = .next { s with err := 3 } :=
  if_pos h

/-- Settles O53: the check admits the pages below 8, which the four bits of `CUR_PAGE` hold without loss. -/
theorem setpgStoresPagesBelowEight : Obligations.SetpgStoresPagesBelowEight := by
  refine ⟨fun p s hp => ⟨_, exec_setpg_of_lt hp s, ?_, rfl⟩, fun p s hp => exec_setpg_of_ge hp s,
    fun w => decode_setpg, decode_setpg (by decide), decode_setpg (by decide)⟩
  show (p.setWidth 4).toNat = p.toNat
  rw [BitVec.toNat_setWidth]
  exact Nat.mod_eq_of_lt (by omega)

/-! ## SETCOL -/

theorem exec_setcol_of_le {c : Byte} (h : c.toNat ≤ 120) (s : State) :
    exec (.setcol c) s = .next { s with curCol := c, err := 0 } :=
  if_pos (show c.toNat + 5 < 126 by omega)

theorem exec_setcol_of_gt {c : Byte} (h : 121 ≤ c.toNat) (s : State) :
    exec (.setcol c) s = .next { s with err := 2 } :=
  if_neg (show ¬c.toNat + 5 < 126 by omega)

/-- A glyph that stays within the usable width is drawn at the cursor's column, on the page the cursor names (R124). -/
theorem glyphCursor_of_le {page col : Nat} (h : col ≤ 121) : glyphCursor page col = (normalisePage page, col) :=
  if_neg (show ¬col + 5 > 126 by omega)

/-- Settles O54: the setter's bound ends one column before the limit of PUTC's wrap. -/
theorem setcolStoresColumnsUpTo120 : Obligations.SetcolStoresColumnsUpTo120 :=
  ⟨fun _ s hc => exec_setcol_of_le hc s, fun _ s hc => exec_setcol_of_gt hc s, fun _ => decode_setcol,
    decode_setcol (by decide), fun _ => congrArg Prod.snd (glyphCursor_of_le (Nat.le_refl 121))⟩

end Sys2Proof.Machine
end

section
/-! PUTCAT (43_text.md R130 to R132): its three failing checks in their order, its success, and the effect of a command
as a function of the framebuffer alone. -/

namespace Sys2Proof.Machine

theorem exec_putcat_of_row {row : Byte} (hr : 57 ≤ row.toNat) (col c : Byte) (s : State) :
    exec (.putcat row col c) s = .next { s with err := 1 } :=
  if_pos (show row.toNat + 7 ≥ 64 by omega)

/-- Once the row is in range the column decides. -/
theorem exec_putcat_of_col {row col : Byte} (hr : row.toNat ≤ 56) (hc : 121 ≤ col.toNat) (c : Byte) (s : State) :
    exec (.putcat row col c) s = .next { s with err := 2 } :=
  (if_neg (show ¬row.toNat + 7 ≥ 64 by omega)).trans (if_pos (show col.toNat + 5 ≥ 126 by omega))

/-- With the corner in range PUTCAT is its glyph lookup and, for a supported character, the shifted blit. -/
theorem exec_putcat_of_corner {row col : Byte} (hr : row.toNat ≤ 56) (hc : col.toNat ≤ 120) (c : Byte) (s : State) :
    exec (.putcat row col c) s =
      (glyphBytes Config.glyphRom c).elim (raise .unsupportedCharacter s) fun g =>
        deliver ((shiftBlit (row.toNat / 8) (row.toNat % 8) col.toNat g s.fb).map fun fb => { s with fb := fb }) := by
  rw [exec, execPutcat, putcatWith, if_neg (show ¬row.toNat + 7 ≥ 64 by omega),
    if_neg (show ¬col.toNat + 5 ≥ 126 by omega)]
  cases glyphBytes Config.glyphRom c with
  | none => rfl
  | some g =>
    simp only [Option.elim_some]
    cases shiftBlit (row.toNat / 8) (row.toNat % 8) col.toNat g s.fb with
    | ok fb => rfl
    | error f => rfl

theorem exec_putcat_of_char {row col c : Byte} (hr : row.toNat ≤ 56) (hc : col.toNat ≤ 120)
    (hg : glyphBytes Config.glyphRom c = none) (s : State) :
    exec (.putcat row col c) s = .next { s with err := 6 } := by
  rw [exec_putcat_of_corner hr hc, hg]
  rfl

theorem exec_putcat_of_blit {row col c : Byte} {g : List Byte} {s : State} {fb : Memory} (hr : row.toNat ≤ 56)
    (hc : col.toNat ≤ 120) (hg : glyphBytes Config.glyphRom c = some g)
    (hblit : shiftBlit (row.toNat / 8) (row.toNat % 8) col.toNat g s.fb = .ok fb) :
    exec (.putcat row col c) s = .next { s with fb := fb, err := 0 } := by
  rw [exec_putcat_of_corner hr hc, hg, Option.elim_some, hblit]
  rfl

/-- A corner in range keeps the whole glyph on the display: its target page exists, and so does the next page whenever
there is a spill, so every access of the blit names a cell (R131). -/
theorem shiftBlit_of_corner {row col : Byte} {g : List Byte} (hr : row.toNat ≤ 56) (hc : col.toNat ≤ 120)
    (hlen : g.length = 5) (fb : Memory) :
    ∃ fb', shiftBlit (row.toNat / 8) (row.toNat % 8) col.toNat g fb = .ok fb' := by
  obtain ⟨fb', hblit, -, -⟩ := shiftBlit_spec (page := row.toNat / 8) (shift := row.toNat % 8) (by omega)
    (fun hshift => by omega) g col.toNat fb (by omega)
  exact ⟨fb', hblit⟩

/-- PUTCAT always completes, and its effect is one framebuffer and one `ERR` value that are the same for all states with
the same framebuffer: no path of it reads or writes anything else (R132). -/
theorem exec_putcat_effect (row col c : Byte) (fb : Memory) :
    ∃ (fb' : Memory) (e : Byte), ∀ s : State, s.fb = fb →
      exec (.putcat row col c) s = .next { s with fb := fb', err := e } := by
  by_cases hr : row.toNat ≤ 56
  · by_cases hc : col.toNat ≤ 120
    · cases hg : glyphBytes Config.glyphRom c with
      | none =>
        refine ⟨fb, 6, ?_⟩
        rintro s rfl
        exact exec_putcat_of_char hr hc hg s
      | some g =>
        obtain ⟨fb', hblit⟩ := shiftBlit_of_corner hr hc (glyphBytes_length hg) fb
        refine ⟨fb', 0, ?_⟩
        rintro s rfl
        exact exec_putcat_of_blit hr hc hg hblit
    · refine ⟨fb, 2, ?_⟩
      rintro s rfl
      exact exec_putcat_of_col hr (Nat.not_le.mp hc) c s
  · refine ⟨fb, 1, ?_⟩
    rintro s rfl
    exact exec_putcat_of_row (Nat.not_le.mp hr) col c s

/-- Settles O58: the states that differ only in the cursor have one framebuffer, which determines PUTCAT's effect. -/
theorem putcatIsIsolatedFromTheCursor : Obligations.PutcatIsIsolatedFromTheCursor := by
  intro row col c s
  obtain ⟨fb, e, heffect⟩ := exec_putcat_effect row col c s.fb
  exact ⟨fb, e, fun _ _ => heffect _ rfl⟩

end Sys2Proof.Machine
end

section
/-! The register port (44_system.md R140, R141): the byte that a read of each register answers, and the step that hands
it to the host. -/

namespace Sys2Proof.Machine

/-! ## The four registers -/

/-- Bits 7 to 3 of `ERR` always read 0 (R26). -/
theorem toNat_regRead_err (s : State) : (regRead 0 s).toNat = s.err.toNat % 8 :=
  Nat.and_two_pow_sub_one_eq_mod s.err.toNat 3

theorem toNat_regRead_curPage (s : State) : (regRead 1 s).toNat = s.curPage.toNat :=
  BitVec.toNat_setWidth_of_le (by decide)

@[simp] theorem regRead_curCol (s : State) : regRead 2 s = s.curCol := rfl
@[simp] theorem regRead_ret (s : State) : regRead 3 s = s.ret := rfl

/-- A column on the display reads with its unused bit 7 clear (R141). -/
theorem regRead_curCol_bit_seven {s : State} (h : s.curCol.toNat ≤ 127) : (regRead 2 s).getLsbD 7 = false :=
  Nat.testBit_lt_two_pow (Nat.lt_succ_of_le h)

/-! ## The read transaction -/

/-- The accepted request is not among what a register read looks at, so the reply is the register's value before the
step (R140). -/
theorem step_regRead {s : State} {n : RegNum} {rest : List Request} (h : s.requests = .regRead n :: rest) :
    step s = .next { s with requests := rest, replies := s.replies ++ [regRead n s] } := by
  rw [step_of_cons h]
  rfl

/-- Settles O10: the reply is `regRead n s`, and each register number gives it its value. -/
theorem regReadReturnsItsRegister : Obligations.RegReadReturnsItsRegister := by
  intro s n rest h
  refine ⟨regRead n s, step_regRead h, ?err, ?curPage, ?curCol, ?ret⟩
  case err =>
    rintro rfl
    exact toNat_regRead_err s
  case curPage =>
    rintro rfl
    exact toNat_regRead_curPage s
  case curCol =>
    rintro rfl
    exact ⟨regRead_curCol s, regRead_curCol_bit_seven⟩
  case ret =>
    rintro rfl
    exact regRead_ret s

end Sys2Proof.Machine
end

section
/-! Encoding and decoding as inverse functions (30_encoding.md sections 1 to 3 and 5): every mnemonic with as many
operand bytes as its format names is one command, whose word decodes to it. -/

namespace Sys2Proof

/-! ## Decoding a command's word -/

@[simp] theorem decode_encode (i : Instr) : decode (encode i) = .ok i :=
  (decode_eq_ok_iff_and_usedMask (encode i) i).mpr (encode_and_usedMask i)

/-- Settles O2: the word of a command keeps its opcode and operand bytes under the mask by which decoding compares, and
the byte decoder decodes the word that its eight bytes pack to. -/
theorem decodeInvertsEncode : Obligations.DecodeInvertsEncode := by
  intro i _
  refine ⟨decode_encode i, ?_⟩
  have h := decodeBytes_bytesOfWord_append (encode i) []
  rw [List.append_nil, decode_encode] at h
  exact h

/-! ## Commands from their mnemonic and operand bytes -/

/-- The opcode bytes 1 to 11 are the opcodes of the eleven mnemonics (R63). -/
theorem exists_mnemonic_of_opcode {op : Byte} (h1 : 1 ≤ op.toNat) (h11 : op.toNat ≤ 11) :
    ∃ mn : Mnemonic, mn.opcode = op := by
  have hmap : ∀ n : Nat, 1 ≤ n → n ≤ 11 → ∃ mn : Mnemonic, mn.opcode = BitVec.ofNat 8 n := by
    intro n hlow hhigh
    interval_cases n
    exacts [⟨.pix, rfl⟩, ⟨.point, rfl⟩, ⟨.hline, rfl⟩, ⟨.vline, rfl⟩, ⟨.line, rfl⟩, ⟨.rect, rfl⟩, ⟨.arc, rfl⟩,
      ⟨.putc, rfl⟩, ⟨.setpg, rfl⟩, ⟨.setcol, rfl⟩, ⟨.putcat, rfl⟩]
  obtain ⟨mn, hmn⟩ := hmap op.toNat h1 h11
  exact ⟨mn, by rw [hmn, BitVec.ofNat_toNat, BitVec.setWidth_eq]⟩

/-- As many bytes as the format names make a command (R61). -/
theorem exists_instr_of_length {mn : Mnemonic} {bytes : List Byte} (h : bytes.length = mn.arity) :
    ∃ i : Instr, i.mnemonic = mn ∧ i.operandBytes = bytes :=
  match mn, bytes, h with
  | .pix, [row, col, m], _ => ⟨.pix row col m, rfl, rfl⟩
  | .point, [row, col, t, m], _ => ⟨.point row col t m, rfl, rfl⟩
  | .hline, [colA, colB, row, t, m], _ => ⟨.hline colA colB row t m, rfl, rfl⟩
  | .vline, [col, rowA, rowB, t, m], _ => ⟨.vline col rowA rowB t m, rfl, rfl⟩
  | .line, [x1, y1, x2, y2, t, m], _ => ⟨.line x1 y1 x2 y2 t m, rfl, rfl⟩
  | .rect, [x1, y1, x2, y2, t, m], _ => ⟨.rect x1 y1 x2 y2 t m, rfl, rfl⟩
  | .arc, [cx, cy, r, aStart, aEnd, t, m], _ => ⟨.arc cx cy r aStart aEnd t m, rfl, rfl⟩
  | .putc, [c], _ => ⟨.putc c, rfl, rfl⟩
  | .setpg, [p], _ => ⟨.setpg p, rfl, rfl⟩
  | .setcol, [c], _ => ⟨.setcol c, rfl, rfl⟩
  | .putcat, [row, col, c], _ => ⟨.putcat row col c, rfl, rfl⟩

/-- The first bytes of a word are its opcode byte and the operand bytes after it. -/
theorem take_bytesOfWord_succ (w : CommandWord) {n : Nat} (hn : n ≤ 7) :
    (bytesOfWord w).take (n + 1) = byteField w 0 :: (List.range n).map fun k => byteField w (k + 1) := by
  rw [bytesOfWord, ← List.map_take, List.take_range, Nat.min_eq_left (by omega), List.range_succ_eq_map, List.map_cons,
    List.map_map]
  rfl

/-- Settles O4: the opcode byte is that of a mnemonic, and the mnemonic with the operand bytes of the word is a command
whose used bytes the word has. -/
theorem opcodeByteDecides : Obligations.OpcodeByteDecides := by
  refine fun w => ⟨fun ⟨h1, h11⟩ => ?_, decode_of_illegal⟩
  obtain ⟨mn, hop⟩ := exists_mnemonic_of_opcode h1 h11
  have hlength : ((List.range mn.arity).map fun k => byteField w (k + 1)).length = mn.arity := by simp
  obtain ⟨i, rfl, hargs⟩ := exists_instr_of_length hlength
  refine ⟨i, (decode_eq_ok_iff w i).mpr ?_, hop, hargs⟩
  rw [take_bytesOfWord_succ w (arity_le i.mnemonic), hop, hargs]

/-! ## Written commands -/

theorem wellFormed_iff (c : SourceCommand) :
    c.wellFormed = true ↔ c.operands.length = c.mnemonic.arity ∧ ∀ v ∈ c.operands, v < 256 := by
  simp [SourceCommand.wellFormed, SourceCommand.arityFits, SourceCommand.operandsFit]

/-- A number below 256 is the value of its byte. -/
theorem map_toNat_map_ofNat {vs : List Nat} (h : ∀ v ∈ vs, v < 256) :
    (vs.map (BitVec.ofNat 8)).map BitVec.toNat = vs := by
  rw [List.map_map]
  exact (List.map_congr_left fun v hv => Nat.mod_eq_of_lt (h v hv)).trans (List.map_id vs)

/-- A well-formed written command is the written form of a command, and its word is that command's. -/
theorem exists_instr_of_wellFormed {c : SourceCommand} (h : c.wellFormed = true) :
    ∃ i : Instr, i.source = c ∧ c.word = some (encode i) := by
  obtain ⟨hlength, hbytes⟩ := (wellFormed_iff c).mp h
  obtain ⟨i, hmn, hargs⟩ := exists_instr_of_length ((List.length_map (BitVec.ofNat 8)).trans hlength)
  refine ⟨i, ?_, ?_⟩
  · rw [Instr.source, hmn, hargs, map_toNat_map_ofNat hbytes]
  · rw [SourceCommand.word, if_pos h, encode, hmn, hargs]

/-- Settles O6: a written command without a word is not well formed, and one with a word is the written form of the
command that was encoded. -/
theorem assembledWordsDecodeToTheirSource : Obligations.AssembledWordsDecodeToTheirSource := by
  intro c
  by_cases h : c.wellFormed = true
  · obtain ⟨i, hsource, hword⟩ := exists_instr_of_wellFormed h
    rw [hword]
    refine ⟨⟨fun _ => ⟨_, rfl⟩, fun _ => h⟩, ?_⟩
    rintro w ⟨rfl⟩
    exact ⟨i, decode_encode i, hsource, rfl⟩
  · have hnone : c.word = none := if_neg h
    rw [hnone]
    exact ⟨⟨fun h' => absurd h' h, fun ⟨_, hw⟩ => by cases hw⟩, fun _ hw => by cases hw⟩

/-! ## Published words and source text -/

/-- Settles O1: the used bytes of each word are those of the command. -/
theorem publishedWordsDecode : Obligations.PublishedWordsDecode := by
  refine ⟨?_, ?_, ?_, ?_, ?_⟩ <;> rw [decode_eq_ok_iff] <;> decide

/-- Settles O7: each line is read and assembled by evaluation. -/
theorem sourceTextAssembles : Obligations.SourceTextAssembles := by
  refine ⟨?_, ?_, ?_, ?_, ?_, ?_, ?_, ?_, ?_⟩ <;> decide

end Sys2Proof
end

section
/-! The canonical form of the framebuffer list: the bytes it reads determine it. -/

namespace Sys2Proof.Machine

theorem Memory.wfFrom_cons {lo k : Nat} {v : Byte} {rest : Memory} :
    Memory.wfFrom lo ((k, v) :: rest) = true ↔ lo ≤ k ∧ k < 1024 ∧ v ≠ 0 ∧ Memory.wfFrom (k + 1) rest = true := by
  simp [Memory.wfFrom, and_assoc]

theorem Memory.read_cons_self (k : Nat) (v : Byte) (rest : Memory) : Memory.read ((k, v) :: rest) k = v := if_pos rfl

theorem Memory.read_cons_of_ne {a k : Nat} (h : a ≠ k) (v : Byte) (rest : Memory) :
    Memory.read ((k, v) :: rest) a = Memory.read rest a := if_neg h

/-- A memory that reads as one whose first listed address is `k` has a byte other than 0x00 there, so not all its listed
addresses are above `k`. -/
theorem Memory.not_wfFrom_succ_of_read_eq {lo k : Nat} {v : Byte} {rest m : Memory}
    (h : Memory.wfFrom lo ((k, v) :: rest) = true) (hread : ∀ a < 1024, Memory.read ((k, v) :: rest) a = m.read a) :
    ¬Memory.wfFrom (k + 1) m = true := by
  obtain ⟨-, hk, hv, -⟩ := Memory.wfFrom_cons.mp h
  intro hm
  have hzero : m.read k = 0 := Memory.read_below hm (Nat.lt_succ_self k)
  rw [← hread k hk, Memory.read_cons_self] at hzero
  exact hv hzero

/-- Two canonical memories that read alike list the same first address, with the same byte, and their rests read
alike. -/
theorem Memory.eq_of_read_eq {m m' : Memory} {lo : Nat} (h : Memory.wfFrom lo m = true)
    (h' : Memory.wfFrom lo m' = true) (hread : ∀ a < 1024, m.read a = m'.read a) : m = m' := by
  induction m generalizing m' lo with
  | nil =>
    cases m' with
    | nil => rfl
    | cons cell rest' => exact absurd rfl (Memory.not_wfFrom_succ_of_read_eq h' fun a ha => (hread a ha).symm)
  | cons cell rest ih =>
    obtain ⟨k, v⟩ := cell
    obtain ⟨hlo, hk, hv, hrest⟩ := Memory.wfFrom_cons.mp h
    cases m' with
    | nil => exact absurd rfl (Memory.not_wfFrom_succ_of_read_eq h hread)
    | cons cell' rest' =>
      obtain ⟨k', v'⟩ := cell'
      obtain ⟨hlo', hk', hv', hrest'⟩ := Memory.wfFrom_cons.mp h'
      have hle : k' ≤ k := by
        by_contra hlt
        exact Memory.not_wfFrom_succ_of_read_eq h hread
          (Memory.wfFrom_cons.mpr ⟨Nat.not_le.mp hlt, hk', hv', hrest'⟩)
      have hle' : k ≤ k' := by
        by_contra hlt
        exact Memory.not_wfFrom_succ_of_read_eq h' (fun a ha => (hread a ha).symm)
          (Memory.wfFrom_cons.mpr ⟨Nat.not_le.mp hlt, hk, hv, hrest⟩)
      obtain rfl : k = k' := Nat.le_antisymm hle' hle
      have hvalue : v = v' := by simpa only [Memory.read_cons_self] using hread k hk
      have htail : rest = rest' := ih hrest hrest' fun a ha => by
        by_cases hak : a = k
        · rw [hak, Memory.read_below hrest (Nat.lt_succ_self k), Memory.read_below hrest' (Nat.lt_succ_self k)]
        · simpa only [Memory.read_cons_of_ne hak] using hread a ha
      rw [hvalue, htail]

/-- Settles O15: by induction on the list, the first cells of the two memories have one address and one byte. -/
theorem canonicalMemoryIsDeterminedByItsReads : Obligations.CanonicalMemoryIsDeterminedByItsReads :=
  fun _ _ h h' => Memory.eq_of_read_eq h h'

end Sys2Proof.Machine
end

section
/-! Checked drawing as a whole command (40_pixel_point.md, 41_line.md sections 2 to 4): the code that a list of checks
reports, and the state that a drawing command answers. -/

namespace Sys2Proof.Machine

/-! ## The checks of the operands -/

theorem validMode_iff (m : Byte) : validMode m = true ↔ m = 0x73 ∨ m = 0x63 := by
  simp [validMode]

theorem checkMode_eq (m : Byte) : checkMode m = if validMode m = false then .invalidMode else .ok := by
  by_cases h : validMode m = true
  · rw [checkMode_ok.mpr ((validMode_iff m).mp h), h]
    rfl
  · have hbytes : m ≠ 0x73 ∧ m ≠ 0x63 := not_or.mp (mt (validMode_iff m).mpr h)
    rw [Bool.not_eq_true] at h
    rw [checkMode, if_pos hbytes, if_pos h]

theorem checkTM_eq (t m : Byte) :
    checkTM t m =
      if 1 < t.toNat then .unsupportedThickness else if validMode m = false then .invalidMode else .ok := by
  rw [checkTM, checkMode_eq]

/-- An operand is never negative, so only the upper bounds are left to check (R62). -/
theorem checkPt_operand (row col : Byte) :
    checkPt (operand row) (operand col) =
      if 64 ≤ row.toNat then .outOfRangeRow else if 128 ≤ col.toNat then .outOfRangeCol else .ok := by
  have hrow : (operand row < 0 ∨ operand row ≥ 64) ↔ 64 ≤ row.toNat := by
    simp only [operand]
    omega
  have hcol : (operand col < 0 ∨ operand col ≥ 128) ↔ 128 ≤ col.toNat := by
    simp only [operand]
    omega
  simp only [checkPt, hrow, hcol]

theorem checkTM_of_valid {t m : Byte} (ht : t.toNat ≤ 1) (hm : validMode m = true) : checkTM t m = .ok :=
  checkTM_ok.mpr ⟨ht, (validMode_iff m).mp hm⟩

theorem checkPt_operand_of_lt {row col : Byte} (hr : row.toNat < 64) (hc : col.toNat < 128) :
    checkPt (operand row) (operand col) = .ok := by
  rw [checkPt_operand, if_neg (Nat.not_le.mpr hr), if_neg (Nat.not_le.mpr hc)]

/-- A code other than 0 is the code of a failure. -/
theorem ne_ok_of_toByte_ne_zero {e : ErrCode} (h : e.toByte ≠ 0) : e ≠ .ok := by
  rintro rfl
  exact h rfl

@[simp] theorem firstErr_ok_cons (es : List ErrCode) : firstErr (.ok :: es) = firstErr es := rfl

/-- A check that fails on `P` and goes on with `e'` otherwise decides on `P`, and passes the decision on otherwise. -/
theorem firstErr_ite_cons {e : ErrCode} (he : e ≠ .ok) (P : Prop) [Decidable P] (e' : ErrCode) (es : List ErrCode) :
    firstErr ((if P then e else e') :: es) = if P then e else firstErr (e' :: es) := by
  split
  · rw [firstErr_cons, if_neg he]
  · rfl

/-! ## The state after painting -/

/-- The end of a drawing command: the points of `ps` painted in mode `m`, the code `e` in `ERR`. -/
def State.painted (m : Mode) (ps : List Point) (e : ErrCode) (s : State) : State :=
  { s with fb := paint m ps s.fb, err := e.toByte }

theorem painted_spec (m : Mode) (ps : List Point) (e : ErrCode) (s : State) : Painted m ps e s (s.painted m ps e) where
  pixels _ _ hr hc := pixel_paint m ps s.fb hr hc
  bytes := read_paint_of_forall m ps s.fb
  rest := rfl

/-- A command made of one checked drawing paints the clusters of its points if no check fails, and nothing otherwise. -/
theorem conclude_drawChecked (checks : List ErrCode) (t m : Byte) (ps : List Point) (s : State) :
    conclude (drawChecked checks t m ps s.fb) s =
      .next (s.painted (modeOf m) (if firstErr checks = .ok then clusters t ps else []) (firstErr checks)) := by
  rw [conclude_eq, drawChecked_code, drawChecked_fb]
  rfl

theorem conclude_drawChecked_of_ok {checks : List ErrCode} (h : ∀ e ∈ checks, e = .ok) (t m : Byte) (ps : List Point)
    (s : State) :
    conclude (drawChecked checks t m ps s.fb) s = .next (s.painted (modeOf m) (clusters t ps) .ok) := by
  have hok := (firstErr_eq_ok checks).mpr h
  rw [conclude_drawChecked, if_pos hok, hok]

theorem conclude_drawChecked_of_err {checks : List ErrCode} {e : Byte} (h : e = (firstErr checks).toByte) (he : e ≠ 0)
    (t m : Byte) (ps : List Point) (s : State) :
    conclude (drawChecked checks t m ps s.fb) s = .next { s with err := e } := by
  subst h
  rw [conclude_drawChecked, if_neg (ne_ok_of_toByte_ne_zero he)]
  rfl

theorem clusters_singleton (t : Byte) (p : Point) : clusters t [p] = cluster t p := List.flatMap_singleton _ _

/-! ## The drawing commands as checked drawings -/

theorem exec_pix (row col m : Byte) (s : State) :
    exec (.pix row col m) s =
      conclude (drawChecked [checkMode m, checkPt (operand row) (operand col)] 0 m
        [{ row := operand row, col := operand col }] s.fb) s := rfl

theorem exec_point (row col t m : Byte) (s : State) :
    exec (.point row col t m) s =
      conclude (drawChecked [checkTM t m, checkPt (operand row) (operand col)] t m
        [{ row := operand row, col := operand col }] s.fb) s := rfl

theorem exec_hline (colA colB row t m : Byte) (s : State) :
    exec (.hline colA colB row t m) s =
      conclude (drawChecked
        [checkTM t m, checkPt (operand row) (operand colA), checkPt (operand row) (operand colB)] t m
        (hLinePoints (operand colA) (operand colB) (operand row)) s.fb) s := rfl

theorem exec_vline (col rowA rowB t m : Byte) (s : State) :
    exec (.vline col rowA rowB t m) s =
      conclude (drawChecked
        [checkTM t m, checkPt (operand rowA) (operand col), checkPt (operand rowB) (operand col)] t m
        (vLinePoints (operand col) (operand rowA) (operand rowB)) s.fb) s := rfl

theorem exec_line (x1 y1 x2 y2 t m : Byte) (s : State) :
    exec (.line x1 y1 x2 y2 t m) s =
      conclude (drawChecked
        [checkTM t m, checkPt (operand y1) (operand x1), checkPt (operand y2) (operand x2)] t m
        (linePoints (operand x1) (operand y1) (operand x2) (operand y2)) s.fb) s := rfl

end Sys2Proof.Machine
end

section
/-! PIX and POINT (40_pixel_point.md sections 1 to 3). -/

namespace Sys2Proof.Machine

/-- PIX with its checks passed. -/
theorem exec_pix_of_lt {row col m : Byte} (hm : validMode m = true) (hr : row.toNat < 64) (hc : col.toNat < 128)
    (s : State) :
    exec (.pix row col m) s =
      .next (s.painted (modeOf m) [{ row := operand row, col := operand col }] .ok) := by
  rw [exec_pix, conclude_drawChecked_of_ok, clusters_singleton, cluster_zero]
  simp [checkMode_eq, hm, checkPt_operand_of_lt hr hc]

/-- Settles O25: its checks passed, PIX paints a list of one point. -/
theorem pixPaintsItsPixel : Obligations.PixPaintsItsPixel :=
  fun _ _ _ s hm hr hc => ⟨_, exec_pix_of_lt hm hr hc s, painted_spec _ _ _ s⟩

/-- Settles O26: both commands paint the one point, so its pixel has the value of the second mode and every other pixel
of the display its first value. -/
theorem setThenClearChangesOnePixel : Obligations.SetThenClearChangesOnePixel := by
  intro row col s hr hc
  have hset := exec_pix_of_lt (m := 0x73) rfl hr hc s
  refine ⟨_, _, hset, exec_pix_of_lt (m := 0x63) rfl hr hc _, ?_, fun r c hr' hc' => ?_⟩
  · exact (pixel_paint .set _ s.fb hr hc).trans (if_pos List.mem_cons_self)
  · have hclear := pixel_paint .clear [{ row := operand row, col := operand col }]
      (paint .set [{ row := operand row, col := operand col }] s.fb) hr' hc'
    rw [pixel_paint .set _ s.fb hr' hc'] at hclear
    refine hclear.trans ?_
    have hmem : (⟨r, c⟩ : Point) ∈ [(⟨operand row, operand col⟩ : Point)] ↔ r = row.toNat ∧ c = col.toNat := by
      simp [operand]
    simp only [hmem]
    split <;> rfl

/-- POINT with its checks passed. -/
theorem exec_point_of_lt {row col t m : Byte} (ht : t.toNat ≤ 1) (hm : validMode m = true) (hr : row.toNat < 64)
    (hc : col.toNat < 128) (s : State) :
    exec (.point row col t m) s =
      .next (s.painted (modeOf m) (cluster t { row := operand row, col := operand col }) .ok) := by
  rw [exec_point, conclude_drawChecked_of_ok, clusters_singleton]
  simp [checkTM_of_valid ht hm, checkPt_operand_of_lt hr hc]

/-- Settles O27: its checks passed, POINT paints the cluster of its centre. -/
theorem pointPaintsItsCluster : Obligations.PointPaintsItsCluster :=
  fun _ _ _ _ s ht hm hr hc => ⟨_, exec_point_of_lt ht hm hr hc s, painted_spec _ _ _ s⟩

/-- The thick point is its centre and those of the four neighbours that are not skipped (R83). -/
theorem mem_cluster_one (p q : Point) :
    q ∈ cluster 1 p ↔ q = p ∨ (p.row ≠ 0 ∧ q = ⟨p.row - 1, p.col⟩) ∨ (p.col ≠ 0 ∧ q = ⟨p.row, p.col - 1⟩) ∨
      q = ⟨p.row + 1, p.col⟩ ∨ q = ⟨p.row, p.col + 1⟩ := by
  rw [cluster, if_pos rfl]
  simp only [List.mem_append, List.mem_cons, List.not_mem_nil, or_false, or_assoc]
  split <;> split <;> simp_all

/-- Settles O28: a neighbour that is skipped has row or column -1, so it is not on the display. -/
theorem clusterIsAPlusClippedToTheDisplay : Obligations.ClusterIsAPlusClippedToTheDisplay := by
  refine ⟨fun p q hp hq => ?_, cluster_zero⟩
  obtain ⟨hp1, hp2, hp3, hp4⟩ := (onDisplay_iff p).mp hp
  obtain ⟨hq1, hq2, hq3, hq4⟩ := (onDisplay_iff q).mp hq
  rw [mem_cluster_one]
  obtain ⟨pr, pc⟩ := p
  obtain ⟨qr, qc⟩ := q
  simp only [Point.mk.injEq] at *
  omega

theorem firstErr_pix (row col m : Byte) :
    (firstErr [checkMode m, checkPt (operand row) (operand col)]).toByte =
      if validMode m = false then 4 else if 64 ≤ row.toNat then 1 else if 128 ≤ col.toNat then 2 else 0 := by
  simp only [checkMode_eq, checkPt_operand, firstErr_ite_cons, ne_eq, reduceCtorEq, not_false_eq_true, firstErr_ok_cons,
    firstErr_nil, apply_ite ErrCode.toByte]
  rfl

theorem firstErr_point (row col t m : Byte) :
    (firstErr [checkTM t m, checkPt (operand row) (operand col)]).toByte =
      if 1 < t.toNat then 5 else if validMode m = false then 4 else if 64 ≤ row.toNat then 1
        else if 128 ≤ col.toNat then 2 else 0 := by
  simp only [checkTM_eq, checkPt_operand, firstErr_ite_cons, ne_eq, reduceCtorEq, not_false_eq_true, firstErr_ok_cons,
    firstErr_nil, apply_ite ErrCode.toByte]
  rfl

/-- Settles O29: the code of the first failing check is the chain of the statement, and with a failing check nothing is
drawn. -/
theorem pixAndPointReportTheirFirstFailingCheck : Obligations.PixAndPointReportTheirFirstFailingCheck :=
  fun row col t m s _ he =>
    ⟨fun h => conclude_drawChecked_of_err (h.trans (firstErr_pix row col m).symm) he _ _ _ s,
      fun h => conclude_drawChecked_of_err (h.trans (firstErr_point row col t m).symm) he _ _ _ s⟩

end Sys2Proof.Machine
end

section
/-! HLINE, VLINE and LINE (41_line.md sections 2 to 4): what they paint and what they report. -/

namespace Sys2Proof.Machine

theorem exec_hline_of_lt {colA colB row t m : Byte} (ht : t.toNat ≤ 1) (hm : validMode m = true) (hr : row.toNat < 64)
    (ha : colA.toNat < 128) (hb : colB.toNat < 128) (s : State) :
    exec (.hline colA colB row t m) s =
      .next (s.painted (modeOf m) (clusters t (hLinePoints (operand colA) (operand colB) (operand row))) .ok) := by
  rw [exec_hline, conclude_drawChecked_of_ok]
  simp [checkTM_of_valid ht hm, checkPt_operand_of_lt hr ha, checkPt_operand_of_lt hr hb]

/-- Settles O30: its checks passed, HLINE paints the clusters of its loop's points. -/
theorem hlinePaintsItsSpan : Obligations.HlinePaintsItsSpan := by
  intro colA colB row t m s ht hm hr ha hb
  refine ⟨_, exec_hline_of_lt ht hm hr ha hb s, painted_spec _ _ _ s, fun p => ?_⟩
  rw [mem_hLinePoints, Nat.cast_min, Nat.cast_max]
  rfl

theorem exec_vline_of_lt {col rowA rowB t m : Byte} (ht : t.toNat ≤ 1) (hm : validMode m = true)
    (hc : col.toNat < 128) (ha : rowA.toNat < 64) (hb : rowB.toNat < 64) (s : State) :
    exec (.vline col rowA rowB t m) s =
      .next (s.painted (modeOf m) (clusters t (vLinePoints (operand col) (operand rowA) (operand rowB))) .ok) := by
  rw [exec_vline, conclude_drawChecked_of_ok]
  simp [checkTM_of_valid ht hm, checkPt_operand_of_lt ha hc, checkPt_operand_of_lt hb hc]

/-- Settles O31: its checks passed, VLINE paints the clusters of its loop's points. -/
theorem vlinePaintsItsSpan : Obligations.VlinePaintsItsSpan := by
  intro col rowA rowB t m s ht hm hc ha hb
  refine ⟨_, exec_vline_of_lt ht hm hc ha hb s, painted_spec _ _ _ s, fun p => ?_⟩
  rw [mem_vLinePoints, Nat.cast_min, Nat.cast_max]
  rfl

theorem exec_line_of_lt {x1 y1 x2 y2 t m : Byte} (ht : t.toNat ≤ 1) (hm : validMode m = true) (hx1 : x1.toNat < 128)
    (hy1 : y1.toNat < 64) (hx2 : x2.toNat < 128) (hy2 : y2.toNat < 64) (s : State) :
    exec (.line x1 y1 x2 y2 t m) s =
      .next (s.painted (modeOf m)
        (clusters t (linePoints (operand x1) (operand y1) (operand x2) (operand y2))) .ok) := by
  rw [exec_line, conclude_drawChecked_of_ok]
  simp [checkTM_of_valid ht hm, checkPt_operand_of_lt hy1 hx1, checkPt_operand_of_lt hy2 hx2]

/-- Settles O32: its checks passed, LINE paints the clusters of its walk's points. -/
theorem linePaintsItsWalk : Obligations.LinePaintsItsWalk :=
  fun _ _ _ _ _ _ s ht hm hx1 hy1 hx2 hy2 =>
    ⟨_, exec_line_of_lt ht hm hx1 hy1 hx2 hy2 s, painted_spec _ _ _ s⟩

/-- The code of a line's checks: thickness and mode, then the row and the column of each endpoint (R154). -/
theorem firstErr_endpoints (t m row1 col1 row2 col2 : Byte) :
    (firstErr
        [checkTM t m, checkPt (operand row1) (operand col1), checkPt (operand row2) (operand col2)]).toByte =
      if 1 < t.toNat then 5 else if validMode m = false then 4 else if 64 ≤ row1.toNat then 1
        else if 128 ≤ col1.toNat then 2 else if 64 ≤ row2.toNat then 1 else if 128 ≤ col2.toNat then 2 else 0 := by
  simp only [checkTM_eq, checkPt_operand, firstErr_ite_cons, ne_eq, reduceCtorEq, not_false_eq_true, firstErr_ok_cons,
    firstErr_nil, apply_ite ErrCode.toByte]
  rfl

/-- Settles O33: HLINE checks its one row, and VLINE its one column, again with the second endpoint, where it cannot be
the first check that fails. -/
theorem linesReportTheirFirstFailingCheck : Obligations.LinesReportTheirFirstFailingCheck := by
  intro a b c d t m s e he
  refine ⟨fun h => ?hline, fun h => ?vline, fun h => ?line⟩
  case hline =>
    refine conclude_drawChecked_of_err (h.trans ?_) he _ _ _ s
    rw [firstErr_endpoints t m c a c b]
    split_ifs <;> rfl
  case vline =>
    refine conclude_drawChecked_of_err (h.trans ?_) he _ _ _ s
    rw [firstErr_endpoints t m b a c a]
    split_ifs <;> rfl
  case line => exact conclude_drawChecked_of_err (h.trans (firstErr_endpoints t m b a d c).symm) he _ _ _ s

end Sys2Proof.Machine
end

section
/-! The walk of a line (41_line.md section 4, R94 to R96): where each of its points lies, and its symmetry. -/

namespace Sys2Proof.Machine

/-! ## The number of minor steps -/

namespace IsMinorSteps

variable {major minor k n : Nat}

/-- No minor step is taken before the first point. -/
theorem eq_zero_of_first (h : IsMinorSteps major minor 0 n) : n = 0 := by
  obtain ⟨-, hmin⟩ := h
  by_contra hn
  have := hmin 0 (Nat.pos_of_ne_zero hn)
  push_cast at this
  omega

/-- The steps taken by a point of the walk are at most the minor distance: with that many the error is not negative. -/
theorem le_minor (hk : k ≤ major) (h : IsMinorSteps major minor k n) : n ≤ minor := by
  obtain ⟨-, hmin⟩ := h
  by_contra hn
  have hneg := hmin minor (Nat.not_le.mp hn)
  have hprod : (k : Int) * minor ≤ minor * major := by
    rw [mul_comm]
    exact Int.mul_le_mul_of_nonneg_left (by omega) (by omega)
  omega

/-- At the last point all of the minor steps are taken: with one fewer the error is negative. -/
theorem eq_minor_of_last (hle : minor ≤ major) (h : IsMinorSteps major minor major n) : n = minor := by
  refine Nat.le_antisymm (le_minor (Nat.le_refl major) h) ?_
  obtain ⟨hnonneg, -⟩ := h
  by_contra hn
  have hprod : ((n : Int) + 1) * major ≤ minor * major :=
    Int.mul_le_mul_of_nonneg_right (by omega) (by omega)
  rw [add_mul, one_mul, mul_comm (minor : Int)] at hprod
  omega

/-- From one point to the next at most one minor step is taken. -/
theorem succ_bounds {n' : Nat} (hle : minor ≤ major) (h : IsMinorSteps major minor k n)
    (h' : IsMinorSteps major minor (k + 1) n') : n ≤ n' ∧ n' ≤ n + 1 := by
  obtain ⟨hnonneg, hmin⟩ := h
  obtain ⟨hnonneg', hmin'⟩ := h'
  constructor
  · by_contra hn
    have := hmin n' (Nat.not_le.mp hn)
    push_cast [add_mul] at hnonneg'
    omega
  · by_contra hn
    have := hmin' (n + 1) (Nat.not_le.mp hn)
    push_cast [add_mul] at this
    omega

end IsMinorSteps

/-! ## Steps toward a coordinate -/

/-- The coordinate `n` steps from `a` in the direction of `b`. -/
def stepsToward (a b : Int) (n : Nat) : Int := a + n * (b - a).sign

@[simp] theorem stepsToward_zero (a b : Int) : stepsToward a b 0 = a := by
  simp [stepsToward]

theorem stepsToward_natAbs (a b : Int) : stepsToward a b (b - a).natAbs = b := by
  rw [stepsToward, mul_comm, Int.sign_mul_natAbs]
  omega

theorem stepsToward_cases (a b : Int) (n : Nat) :
    (a < b ∧ stepsToward a b n = a + n) ∨ (a = b ∧ stepsToward a b n = a) ∨ (b < a ∧ stepsToward a b n = a - n) := by
  rcases lt_trichotomy a b with h | rfl | h
  · exact .inl ⟨h, by rw [stepsToward, Int.sign_eq_one_of_pos (by omega), mul_one]⟩
  · exact .inr (.inl ⟨rfl, by simp [stepsToward]⟩)
  · exact .inr (.inr ⟨h, by rw [stepsToward, Int.sign_eq_neg_one_of_neg (by omega)]; ring⟩)

theorem stepsToward_between {a b : Int} {n : Nat} (h : n ≤ (b - a).natAbs) :
    min a b ≤ stepsToward a b n ∧ stepsToward a b n ≤ max a b := by
  have := stepsToward_cases a b n
  omega

theorem stepsToward_succ_bounds (a b : Int) {n n' : Nat} (h : n ≤ n' ∧ n' ≤ n + 1) :
    (stepsToward a b n' - stepsToward a b n).natAbs ≤ 1 := by
  have := stepsToward_cases a b n
  have := stepsToward_cases a b n'
  omega

/-! ## The points of the walk -/

/-- The point with the given coordinates along the longer and the shorter axis. -/
def axisPoint (steep : Bool) (major minor : Int) : Point :=
  if steep then { row := major, col := minor } else { row := minor, col := major }

/-- The walk from the endpoint with the smaller major coordinate. -/
theorem majorPoints_of_le (steep : Bool) {x1 x2 : Int} (y1 y2 : Int) (h : x1 ≤ x2) :
    majorPoints steep x1 y1 x2 y2 =
      LineSetup.walk ⟨steep, (x2 - x1).natAbs, (y2 - y1).natAbs, if y2 > y1 then 1 else -1⟩ ((x2 - x1).natAbs + 1)
        x1 y1 (((x2 - x1).natAbs : Int) / 2) := by
  have hle : ¬x1 > x2 := by omega
  simp only [majorPoints, hle, if_false, Int.toNat_natCast]

/-- Exchanging the endpoints does not change the walk, unless both have the same major coordinate: then the walk
begins at the first. -/
theorem majorPoints_comm (steep : Bool) {x1 x2 : Int} (y1 y2 : Int) (h : x1 ≠ x2) :
    majorPoints steep x1 y1 x2 y2 = majorPoints steep x2 y2 x1 y1 := by
  simp only [majorPoints, ← Int.natAbs_neg (x2 - x1), ← Int.natAbs_neg (y2 - y1), Int.neg_sub]
  rcases Int.lt_or_gt_of_ne h with hlt | hlt
  · simp only [gt_iff_lt, hlt, Int.not_lt.mpr (Int.le_of_lt hlt), if_true, if_false]
  · simp only [gt_iff_lt, hlt, Int.not_lt.mpr (Int.le_of_lt hlt), if_true, if_false]

theorem length_majorPoints (steep : Bool) (x1 y1 x2 y2 : Int) :
    (majorPoints steep x1 y1 x2 y2).length = (x2 - x1).natAbs + 1 := by
  simp only [majorPoints, walk_length, Int.toNat_natCast]

/-- Where point `k` of the walk lies, from the endpoint with the smaller major coordinate. -/
theorem getElem?_majorPoints_of_le {steep : Bool} {x1 y1 x2 y2 : Int} {k : Nat} {p : Point}
    (hle : (y2 - y1).natAbs ≤ (x2 - x1).natAbs) (hx : x1 ≤ x2)
    (hp : (majorPoints steep x1 y1 x2 y2)[k]? = some p) :
    ∃ n, IsMinorSteps (x2 - x1).natAbs (y2 - y1).natAbs k n ∧ p = axisPoint steep (x1 + k) (stepsToward y1 y2 n) := by
  have hk : k ≤ (x2 - x1).natAbs := by
    have := (List.getElem?_eq_some_iff.mp hp).1
    rw [length_majorPoints] at this
    omega
  rw [majorPoints_of_le steep y1 y2 hx] at hp
  obtain ⟨n, hnonneg, hmin, rfl⟩ := walk_getElem _ (Int.natCast_nonneg _) (Int.ofNat_le.mpr hle) _ hp (by positivity)
    (by simp only; omega)
  have hsteps : IsMinorSteps (x2 - x1).natAbs (y2 - y1).natAbs k n := by
    rw [IsMinorSteps, Int.natCast_ediv]
    exact ⟨hnonneg, hmin⟩
  refine ⟨n, hsteps, ?_⟩
  have hcoord : y1 + (n : Int) * (if y2 > y1 then 1 else -1) = stepsToward y1 y2 n := by
    have hn := hsteps.le_minor hk
    have := stepsToward_cases y1 y2 n
    split <;> omega
  rw [← hcoord]
  rfl

/-- Where point `k` of the walk lies (R94): `k` steps along the major axis from the smaller coordinate on it, and from
the endpoint there as many steps along the minor axis, toward the other endpoint, as the accumulator has called for. -/
theorem getElem?_majorPoints {steep : Bool} {x1 y1 x2 y2 : Int} {k : Nat} {p : Point}
    (hle : (y2 - y1).natAbs ≤ (x2 - x1).natAbs) (hp : (majorPoints steep x1 y1 x2 y2)[k]? = some p) :
    ∃ n, IsMinorSteps (x2 - x1).natAbs (y2 - y1).natAbs k n ∧
      p = axisPoint steep (min x1 x2 + k) (if x1 ≤ x2 then stepsToward y1 y2 n else stepsToward y2 y1 n) := by
  by_cases hx : x1 ≤ x2
  · simp only [if_pos hx, Int.min_eq_left hx]
    exact getElem?_majorPoints_of_le hle hx hp
  · rw [majorPoints_comm steep y1 y2 (by omega)] at hp
    simp only [if_neg hx, Int.min_eq_right (Int.le_of_lt (Int.not_le.mp hx)), ← Int.natAbs_neg (x2 - x1),
      ← Int.natAbs_neg (y2 - y1), Int.neg_sub]
    exact getElem?_majorPoints_of_le (by omega) (by omega) hp

/-- A line longer in y than in x is walked with the axes exchanged (R94). -/
theorem linePoints_of_steep {x1 y1 x2 y2 : Int} (h : (y2 - y1).natAbs > (x2 - x1).natAbs) :
    linePoints x1 y1 x2 y2 = majorPoints true y1 x1 y2 x2 := if_pos h

theorem linePoints_of_not_steep {x1 y1 x2 y2 : Int} (h : ¬(y2 - y1).natAbs > (x2 - x1).natAbs) :
    linePoints x1 y1 x2 y2 = majorPoints false x1 y1 x2 y2 := if_neg h

/-! ## Endpoints -/

theorem head?_majorPoints_of_le {steep : Bool} {x1 y1 x2 y2 : Int} (hle : (y2 - y1).natAbs ≤ (x2 - x1).natAbs)
    (hx : x1 ≤ x2) : (majorPoints steep x1 y1 x2 y2).head? = some (axisPoint steep x1 y1) := by
  have hlen : 0 < (majorPoints steep x1 y1 x2 y2).length := by
    rw [length_majorPoints]
    exact Nat.succ_pos _
  rw [List.head?_eq_getElem?, List.getElem?_eq_getElem hlen]
  obtain ⟨n, hn, hp⟩ := getElem?_majorPoints_of_le hle hx (List.getElem?_eq_getElem hlen)
  rw [hp, hn.eq_zero_of_first, stepsToward_zero]
  simp

theorem getLast?_majorPoints_of_le {steep : Bool} {x1 y1 x2 y2 : Int} (hle : (y2 - y1).natAbs ≤ (x2 - x1).natAbs)
    (hx : x1 ≤ x2) : (majorPoints steep x1 y1 x2 y2).getLast? = some (axisPoint steep x2 y2) := by
  have hlen : (x2 - x1).natAbs < (majorPoints steep x1 y1 x2 y2).length := by
    rw [length_majorPoints]
    exact Nat.lt_succ_self _
  rw [List.getLast?_eq_getElem?, length_majorPoints, Nat.add_sub_cancel, List.getElem?_eq_getElem hlen]
  obtain ⟨n, hn, hp⟩ := getElem?_majorPoints_of_le hle hx (List.getElem?_eq_getElem hlen)
  rw [hp, hn.eq_minor_of_last hle, stepsToward_natAbs]
  have hend : x1 + ((x2 - x1).natAbs : Int) = x2 := by omega
  rw [hend]

/-- The walk runs between its endpoints, from the one with the smaller major coordinate (R95). -/
theorem ends_majorPoints (steep : Bool) {x1 y1 x2 y2 : Int} (hle : (y2 - y1).natAbs ≤ (x2 - x1).natAbs) :
    ((majorPoints steep x1 y1 x2 y2).head? = some (axisPoint steep x1 y1) ∧
      (majorPoints steep x1 y1 x2 y2).getLast? = some (axisPoint steep x2 y2)) ∨
    ((majorPoints steep x1 y1 x2 y2).head? = some (axisPoint steep x2 y2) ∧
      (majorPoints steep x1 y1 x2 y2).getLast? = some (axisPoint steep x1 y1)) := by
  by_cases hx : x1 ≤ x2
  · exact .inl ⟨head?_majorPoints_of_le hle hx, getLast?_majorPoints_of_le hle hx⟩
  · rw [majorPoints_comm steep y1 y2 (by omega)]
    exact .inr ⟨head?_majorPoints_of_le (by omega) (by omega), getLast?_majorPoints_of_le (by omega) (by omega)⟩

/-- Settles O34: the walk runs between the endpoints along its longer axis, whichever that is. -/
theorem lineWalkJoinsItsEndpoints : Obligations.LineWalkJoinsItsEndpoints := by
  intro x1 y1 x2 y2
  by_cases hsteep : (y2 - y1).natAbs > (x2 - x1).natAbs
  · rw [linePoints_of_steep hsteep]
    exact ends_majorPoints true (Nat.le_of_lt hsteep)
  · rw [linePoints_of_not_steep hsteep]
    exact ends_majorPoints false (Nat.not_lt.mp hsteep)

/-- Both endpoints of a line are among its points. -/
theorem endpoints_mem_linePoints (x1 y1 x2 y2 : Int) :
    (⟨y1, x1⟩ : Point) ∈ linePoints x1 y1 x2 y2 ∧ (⟨y2, x2⟩ : Point) ∈ linePoints x1 y1 x2 y2 := by
  rcases lineWalkJoinsItsEndpoints x1 y1 x2 y2 with ⟨hhead, hlast⟩ | ⟨hhead, hlast⟩
  · exact ⟨List.mem_of_head? hhead, List.mem_of_getLast? hlast⟩
  · exact ⟨List.mem_of_getLast? hlast, List.mem_of_head? hhead⟩

/-! ## No gaps -/

/-- Consecutive points are one major step and at most one minor step apart. -/
theorem consecutive_majorPoints {steep : Bool} {x1 y1 x2 y2 : Int} {k : Nat} {p q : Point}
    (hle : (y2 - y1).natAbs ≤ (x2 - x1).natAbs) (hp : (majorPoints steep x1 y1 x2 y2)[k]? = some p)
    (hq : (majorPoints steep x1 y1 x2 y2)[k + 1]? = some q) :
    ∃ x y y', p = axisPoint steep x y ∧ q = axisPoint steep (x + 1) y' ∧ (y' - y).natAbs ≤ 1 := by
  obtain ⟨n, hn, rfl⟩ := getElem?_majorPoints hle hp
  obtain ⟨n', hn', rfl⟩ := getElem?_majorPoints hle hq
  refine ⟨_, _, _, rfl, by rw [Nat.cast_succ, Int.add_assoc], ?_⟩
  have hsucc := hn.succ_bounds hle hn'
  split <;> exact stepsToward_succ_bounds _ _ hsucc

/-- The walk does not leave the rectangle its endpoints span. -/
theorem mem_majorPoints_bounds {steep : Bool} {x1 y1 x2 y2 : Int} {p : Point}
    (hle : (y2 - y1).natAbs ≤ (x2 - x1).natAbs) (hp : p ∈ majorPoints steep x1 y1 x2 y2) :
    ∃ x y, p = axisPoint steep x y ∧ min x1 x2 ≤ x ∧ x ≤ max x1 x2 ∧ min y1 y2 ≤ y ∧ y ≤ max y1 y2 := by
  obtain ⟨k, hk⟩ := List.mem_iff_getElem?.mp hp
  have hklt := (List.getElem?_eq_some_iff.mp hk).1
  rw [length_majorPoints] at hklt
  obtain ⟨n, hn, rfl⟩ := getElem?_majorPoints hle hk
  have hbound := hn.le_minor (Nat.le_of_lt_succ hklt)
  refine ⟨_, _, rfl, by omega, by omega, ?_⟩
  split
  · exact stepsToward_between hbound
  · have := stepsToward_between (a := y2) (b := y1) (n := n) (by omega)
    omega

/-- Settles O35: the facts about the walk along the longer axis, read off by row and column. -/
theorem lineWalkHasNoGaps : Obligations.LineWalkHasNoGaps := by
  intro x1 y1 x2 y2
  by_cases hsteep : (y2 - y1).natAbs > (x2 - x1).natAbs
  · have hle := Nat.le_of_lt hsteep
    simp only [linePoints_of_steep hsteep, if_pos hsteep]
    refine ⟨?_, fun k p q hp hq => ?_, fun p hp => ?_, fun k p hp => ?_⟩
    · rw [length_majorPoints, Nat.max_eq_right hle]
    · obtain ⟨x, y, y', rfl, rfl, hy⟩ := consecutive_majorPoints hle hp hq
      exact ⟨rfl, hy⟩
    · obtain ⟨x, y, rfl, hx1, hx2, hy1, hy2⟩ := mem_majorPoints_bounds hle hp
      exact ⟨hy1, hy2, hx1, hx2⟩
    · obtain ⟨n, hn, rfl⟩ := getElem?_majorPoints hle hp
      exact ⟨n, hn, rfl, rfl⟩
  · have hle := Nat.not_lt.mp hsteep
    simp only [linePoints_of_not_steep hsteep, if_neg hsteep]
    refine ⟨?_, fun k p q hp hq => ?_, fun p hp => ?_, fun k p hp => ?_⟩
    · rw [length_majorPoints, Nat.max_eq_left hle]
    · obtain ⟨x, y, y', rfl, rfl, hy⟩ := consecutive_majorPoints hle hp hq
      exact ⟨rfl, hy⟩
    · obtain ⟨x, y, rfl, hx1, hx2, hy1, hy2⟩ := mem_majorPoints_bounds hle hp
      exact ⟨hx1, hx2, hy1, hy2⟩
    · obtain ⟨n, hn, rfl⟩ := getElem?_majorPoints hle hp
      exact ⟨n, hn, rfl, rfl⟩

/-! ## Symmetry and straight lines -/

/-- A line and its reverse have the same points in the same order (R96 (b)): the endpoints differ along the longer axis,
or they are one point. -/
theorem linePoints_comm (x1 y1 x2 y2 : Int) : linePoints x1 y1 x2 y2 = linePoints x2 y2 x1 y1 := by
  by_cases hsteep : (y2 - y1).natAbs > (x2 - x1).natAbs
  · rw [linePoints_of_steep hsteep, linePoints_of_steep (by omega), majorPoints_comm true x1 x2 (by omega)]
  · rw [linePoints_of_not_steep hsteep, linePoints_of_not_steep (by omega)]
    by_cases hx : x1 = x2
    · obtain rfl : y1 = y2 := by omega
      rw [hx]
    · exact majorPoints_comm false y1 y2 hx

/-- Settles O36: the two endpoint checks pass, whatever their order, and the points are the same. -/
theorem lineIsSymmetric : Obligations.LineIsSymmetric := by
  intro x1 y1 x2 y2 t m s hx1 hy1 hx2 hy2
  rw [exec_line, exec_line, linePoints_comm, checkPt_operand_of_lt hy1 hx1, checkPt_operand_of_lt hy2 hx2]

/-- With no distance along the minor axis the error is never negative, and the walk is straight. -/
theorem walk_straight (c : LineSetup) (hdy : c.dy = 0) (n : Nat) (x y : Int) {err : Int} (herr : 0 ≤ err) :
    c.walk n x y err = (List.range n).map fun (k : Nat) => c.plot (x + k) y := by
  induction n generalizing x with
  | zero => rfl
  | succ n ih =>
    rw [LineSetup.walk, hdy, Int.sub_zero, if_neg (Int.not_lt.mpr herr), ih, List.range_succ_eq_map, List.map_cons,
      List.map_map]
    congr 1
    · simp
    · refine List.map_congr_left fun k _ => ?_
      rw [Function.comp_apply, Nat.cast_succ, Int.add_assoc, Int.add_comm 1]

/-- A walk along the major axis is the loop over that axis. -/
theorem majorPoints_straight (steep : Bool) (x1 x2 y : Int) :
    majorPoints steep x1 y x2 y = (loopRange (min x1 x2) (max x1 x2)).map fun x => axisPoint steep x y := by
  have hcount : (max x1 x2 - min x1 x2 + 1).toNat = (x2 - x1).natAbs + 1 := by omega
  rw [loopRange, List.map_map, hcount]
  by_cases hx : x1 ≤ x2
  · rw [majorPoints_of_le steep y y hx, walk_straight _ (by simp) _ _ _ (by positivity), Int.min_eq_left hx]
    rfl
  · rw [majorPoints_comm steep y y (by omega), majorPoints_of_le steep y y (by omega),
      walk_straight _ (by simp) _ _ _ (by positivity), Int.min_eq_right (by omega), ← Int.natAbs_neg, Int.neg_sub]
    rfl

theorem linePoints_horizontal (x1 x2 y : Int) : linePoints x1 y x2 y = hLinePoints x1 x2 y := by
  rw [linePoints_of_not_steep (by omega), majorPoints_straight]
  rfl

/-- A vertical line is walked along its rows; a single point is walked along its column, which is the same. -/
theorem linePoints_vertical (x y1 y2 : Int) : linePoints x y1 x y2 = vLinePoints x y1 y2 := by
  by_cases hy : y1 = y2
  · rw [hy, linePoints_horizontal]
    simp [hLinePoints, vLinePoints, loopRange]
  · rw [linePoints_of_steep (by omega), majorPoints_straight]
    rfl

/-- Settles O37: the checks are the same and the points are the same. -/
theorem straightLinesAreHlineAndVline : Obligations.StraightLinesAreHlineAndVline := by
  intro x1 x2 y t m s
  constructor
  · rw [exec_line, exec_hline, linePoints_horizontal]
  · rw [exec_line, exec_vline, linePoints_vertical]

end Sys2Proof.Machine
end

section
/-! RECT and what it shares with ARC: a composite of checked drawings as a whole command (42_shape.md section 1, R100;
60_exceptions.md R153). -/

namespace Sys2Proof.Machine

/-! ## Composites -/

/-- The points of those checked drawings whose checks pass, in order. -/
def passedPoints (parts : List (List ErrCode × List Point)) : List Point :=
  parts.flatMap fun part => if firstErr part.1 = .ok then part.2 else []

/-- A composite command paints the clusters of the points of the drawings that pass, and reports the first failure. -/
theorem conclude_runAll (t m : Byte) (parts : List (List ErrCode × List Point)) (s : State) :
    conclude (runAll (parts.map fun part => drawChecked part.1 t m part.2) s.fb) s =
      .next (s.painted (modeOf m) (clusters t (passedPoints parts))
        (firstErr (parts.map fun part => firstErr part.1))) := by
  rw [runAll_drawChecked]
  rfl

/-- A composite whose every drawing fails with one code draws nothing and reports that code. -/
theorem conclude_runAll_of_all_err {t m : Byte} {parts : List (List ErrCode × List Point)} {e : ErrCode}
    (hne : parts ≠ []) (he : e ≠ .ok) (h : ∀ part ∈ parts, firstErr part.1 = e) (s : State) :
    conclude (runAll (parts.map fun part => drawChecked part.1 t m part.2) s.fb) s =
      .next { s with err := e.toByte } := by
  have hpoints : passedPoints parts = [] :=
    List.flatMap_eq_nil_iff.mpr fun part hpart => if_neg (h part hpart ▸ he)
  have hcode : firstErr (parts.map fun part => firstErr part.1) = e := by
    obtain ⟨part, rest, rfl⟩ := List.exists_cons_of_ne_nil hne
    rw [List.map_cons, firstErr_cons, h part List.mem_cons_self, if_neg he]
  rw [conclude_runAll, hpoints, hcode]
  rfl

/-- The first check decides if it fails. -/
theorem firstErr_cons_of_ne_ok {e : ErrCode} (he : e ≠ .ok) (es : List ErrCode) : firstErr (e :: es) = e := by
  rw [firstErr_cons, if_neg he]

theorem toByte_eq_zero_iff (e : ErrCode) : e.toByte = 0 ↔ e = .ok :=
  ⟨fun h => toByte_inj h, fun h => h ▸ rfl⟩

@[simp] theorem firstErr_singleton (e : ErrCode) : firstErr [e] = e := by
  cases e <;> rfl

theorem runAll_singleton (op : Memory → ErrCode × Memory) (fb : Memory) : runAll [op] fb = op fb := by
  rw [runAll_cons, runAll_nil, firstErr_cons, firstErr_singleton]
  refine Prod.ext ?_ rfl
  split
  · exact Eq.symm ‹_›
  · rfl

/-- The code of a composite in `ERR`: that of its first operation unless it is 0. -/
theorem toByte_runAll_cons (op : Memory → ErrCode × Memory) (ops : List (Memory → ErrCode × Memory)) (fb : Memory) :
    (runAll (op :: ops) fb).1.toByte =
      if (op fb).1.toByte ≠ 0 then (op fb).1.toByte else (runAll ops (op fb).2).1.toByte := by
  rw [runAll_cons]
  by_cases h : (op fb).1 = .ok
  · rw [h, firstErr_ok_cons, firstErr_singleton]
    rfl
  · rw [firstErr_cons_of_ne_ok h, if_pos (mt (toByte_eq_zero_iff _).mp h)]

theorem checkPt_operand_of_row {row : Byte} (hr : 64 ≤ row.toNat) (col : Byte) :
    checkPt (operand row) (operand col) = .outOfRangeRow := by
  rw [checkPt_operand, if_pos hr]

theorem checkPt_operand_of_col {row col : Byte} (hr : row.toNat < 64) (hc : 128 ≤ col.toNat) :
    checkPt (operand row) (operand col) = .outOfRangeCol := by
  rw [checkPt_operand, if_neg (Nat.not_le.mpr hr), if_pos hc]

/-! ## RECT -/

/-- The four sides of RECT as checked drawings. -/
def rectParts (x1 y1 x2 y2 t m : Byte) : List (List ErrCode × List Point) :=
  [([checkTM t m, checkPt (operand y1) (operand x1), checkPt (operand y1) (operand x2)],
      hLinePoints (operand x1) (operand x2) (operand y1)),
    ([checkTM t m, checkPt (operand y2) (operand x1), checkPt (operand y2) (operand x2)],
      hLinePoints (operand x1) (operand x2) (operand y2)),
    ([checkTM t m, checkPt (operand y1) (operand x1), checkPt (operand y2) (operand x1)],
      vLinePoints (operand x1) (operand y1) (operand y2)),
    ([checkTM t m, checkPt (operand y1) (operand x2), checkPt (operand y2) (operand x2)],
      vLinePoints (operand x2) (operand y1) (operand y2))]

theorem exec_rect (x1 y1 x2 y2 t m : Byte) (s : State) :
    exec (.rect x1 y1 x2 y2 t m) s =
      conclude (runAll ((rectParts x1 y1 x2 y2 t m).map fun part => drawChecked part.1 t m part.2) s.fb) s := rfl

/-- A failing thickness or mode check fails every side. -/
theorem exec_rect_of_checkTM {t m : Byte} (h : checkTM t m ≠ .ok) (x1 y1 x2 y2 : Byte) (s : State) :
    exec (.rect x1 y1 x2 y2 t m) s = .next { s with err := (checkTM t m).toByte } := by
  rw [exec_rect]
  refine conclude_runAll_of_all_err (List.cons_ne_nil _ _) h (fun part hpart => ?_) s
  simp only [List.mem_cons, List.not_mem_nil, or_false] at hpart
  rcases hpart with rfl | rfl | rfl | rfl
  all_goals exact firstErr_cons_of_ne_ok h _

/-- RECT paints those of its sides whose two corners are on the display. -/
theorem exec_rect_painted (x1 y1 x2 y2 t m : Byte) (s : State) :
    exec (.rect x1 y1 x2 y2 t m) s =
      .next (s.painted (modeOf m) (clusters t (passedPoints (rectParts x1 y1 x2 y2 t m)))
        (firstErr ((rectParts x1 y1 x2 y2 t m).map fun part => firstErr part.1))) := by
  rw [exec_rect, conclude_runAll]

/-- Settles O38: all four sides pass their checks, and together they are the border. -/
theorem rectPaintsItsBorder : Obligations.RectPaintsItsBorder := by
  intro x1 y1 x2 y2 t m s ht hm hx1 hy1 hx2 hy2
  have hTM := checkTM_of_valid ht hm
  have h11 := checkPt_operand_of_lt hy1 hx1
  have h12 := checkPt_operand_of_lt hy1 hx2
  have h21 := checkPt_operand_of_lt hy2 hx1
  have h22 := checkPt_operand_of_lt hy2 hx2
  have hpoints : passedPoints (rectParts x1 y1 x2 y2 t m) =
      hLinePoints (operand x1) (operand x2) (operand y1) ++ (hLinePoints (operand x1) (operand x2) (operand y2) ++
        (vLinePoints (operand x1) (operand y1) (operand y2) ++
          vLinePoints (operand x2) (operand y1) (operand y2))) := by
    simp [passedPoints, rectParts, hTM, h11, h12, h21, h22]
  have hcode : firstErr ((rectParts x1 y1 x2 y2 t m).map fun part => firstErr part.1) = .ok := by
    simp [rectParts, hTM, h11, h12, h21, h22]
  have hexec := exec_rect_painted x1 y1 x2 y2 t m s
  rw [hpoints, hcode] at hexec
  refine ⟨_, _, hexec, painted_spec _ _ _ s, fun r c => ?_⟩
  simp only [List.mem_append, mem_hLinePoints, mem_vLinePoints, operand]
  omega

/-- Settles O39: the composite is the four lines in order by definition, and its code is the first that is not 0. -/
theorem rectIsItsFourLines : Obligations.RectIsItsFourLines := by
  intro x1 y1 x2 y2 t m s
  refine ⟨_, _, _, _, rfl, rfl, rfl, rfl, ?_⟩
  show conclude (runAll (rectSides x1 y1 x2 y2 t m) s.fb) s = _
  rw [conclude_eq, rectSides, toByte_runAll_cons, toByte_runAll_cons, toByte_runAll_cons, runAll_singleton]
  rfl

/-- Settles O40: with bad y2 the top line is the only side whose corners are on the display, with bad x2 the left. -/
theorem rectIsDrawnInPart : Obligations.RectIsDrawnInPart := by
  intro x1 y1 x2 y2 t m s
  refine ⟨fun ht => ?thickness, fun ht hm => ?mode, fun ht hm hx1 hy1 hx2 hy2 => ?bottom,
    fun ht hm hx1 hy1 hy2 hx2 => ?right⟩
  case thickness =>
    have hcheck : checkTM t m = .unsupportedThickness := by rw [checkTM_eq, if_pos ht]
    rw [exec_rect_of_checkTM (by rw [hcheck]; decide), hcheck]
    rfl
  case mode =>
    have hcheck : checkTM t m = .invalidMode := by rw [checkTM_eq, if_neg (by omega), if_pos hm]
    rw [exec_rect_of_checkTM (by rw [hcheck]; decide), hcheck]
    rfl
  case bottom =>
    have hTM := checkTM_of_valid ht hm
    have h11 := checkPt_operand_of_lt hy1 hx1
    have h12 := checkPt_operand_of_lt hy1 hx2
    have h2 := checkPt_operand_of_row hy2
    have hpoints : passedPoints (rectParts x1 y1 x2 y2 t m) = hLinePoints (operand x1) (operand x2) (operand y1) := by
      simp [passedPoints, rectParts, firstErr_cons, hTM, h11, h12, h2]
    have hcode : firstErr ((rectParts x1 y1 x2 y2 t m).map fun part => firstErr part.1) = .outOfRangeRow := by
      simp [rectParts, firstErr_cons, hTM, h11, h12, h2]
    refine ⟨_, exec_rect_painted x1 y1 x2 y2 t m s, ?_⟩
    rw [hpoints, hcode]
    exact painted_spec _ _ _ s
  case right =>
    have hTM := checkTM_of_valid ht hm
    have h11 := checkPt_operand_of_lt hy1 hx1
    have h21 := checkPt_operand_of_lt hy2 hx1
    have h12 := checkPt_operand_of_col hy1 hx2
    have h22 := checkPt_operand_of_col hy2 hx2
    have hpoints : passedPoints (rectParts x1 y1 x2 y2 t m) = vLinePoints (operand x1) (operand y1) (operand y2) := by
      simp [passedPoints, rectParts, firstErr_cons, hTM, h11, h21, h12, h22]
    have hcode : firstErr ((rectParts x1 y1 x2 y2 t m).map fun part => firstErr part.1) = .outOfRangeCol := by
      simp [rectParts, firstErr_cons, hTM, h11, h21, h12, h22]
    refine ⟨_, exec_rect_painted x1 y1 x2 y2 t m s, ?_⟩
    rw [hpoints, hcode]
    exact painted_spec _ _ _ s

end Sys2Proof.Machine
end

section
/-! The samples of an arc (42_shape.md section 3, R105 to R107): sweep, step count, angles, and the box that holds every
sample. -/

namespace Sys2Proof.Machine

/-! ## Sweep and steps -/

theorem sweep_of_gt {a e : Byte} (h : e.toNat > a.toNat) : sweep a e = e.toNat - a.toNat := if_pos h

theorem sweep_of_le {a e : Byte} (h : e.toNat ≤ a.toNat) : sweep a e = 256 - a.toNat + e.toNat :=
  if_neg (Nat.not_lt.mpr h)

/-- The start angle and the sweep make the end angle, one turn later unless the end angle is the greater. -/
theorem start_add_sweep (a e : Byte) : (a.toNat + sweep a e) % 256 = e.toNat := by
  have ha := a.isLt
  have he := e.isLt
  rcases Nat.lt_or_ge a.toNat e.toNat with h | h
  · rw [sweep_of_gt h]
    omega
  · rw [sweep_of_le h]
    omega

theorem sweep_bounds (a e : Byte) : 1 ≤ sweep a e ∧ sweep a e ≤ 256 := by
  have ha := a.isLt
  rcases Nat.lt_or_ge a.toNat e.toNat with h | h
  · have he := e.isLt
    rw [sweep_of_gt h]
    omega
  · rw [sweep_of_le h]
    omega

theorem sweep_eq_256_iff (a e : Byte) : sweep a e = 256 ↔ a = e := by
  rw [← BitVec.toNat_inj]
  have ha := a.isLt
  have he := e.isLt
  rcases Nat.lt_or_ge a.toNat e.toNat with h | h
  · rw [sweep_of_gt h]
    omega
  · rw [sweep_of_le h]
    omega

/-- The 8-bit reading of the sweep (R105). -/
theorem ofNat_sweep (a e : Byte) : BitVec.ofNat 8 (sweep a e) = e - a := by
  have hsum := start_add_sweep a e
  have ha := a.isLt
  apply BitVec.eq_of_toNat_eq
  rw [BitVec.toNat_ofNat, BitVec.toNat_sub]
  omega

theorem arcSteps_eq (r dw : Nat) : arcSteps r dw = max 1 (r * dw * 201 / 2 ^ 14) := by
  rw [arcSteps, Nat.shiftRight_eq_div_pow]

theorem arcSteps_pos (r dw : Nat) : 0 < arcSteps r dw := Nat.le_max_left 1 _

@[simp] theorem arcSteps_zero (dw : Nat) : arcSteps 0 dw = 1 := by
  simp [arcSteps_eq]

theorem arcSteps_le {r dw : Nat} (hr : r ≤ 255) (hdw : dw ≤ 256) : arcSteps r dw ≤ 800 := by
  have hprod : r * dw ≤ 255 * 256 := Nat.mul_le_mul hr hdw
  rw [arcSteps_eq]
  omega

/-- Settles O42: the sweep's facts from its two cases, the step count's from the bound on `r * dw`. -/
theorem sweepAndStepsFollowTheirFormulas : Obligations.SweepAndStepsFollowTheirFormulas := by
  refine ⟨fun a e => ?_, arcSteps_eq, fun r dw hr hdw => ⟨arcSteps_pos r dw, arcSteps_le hr hdw⟩, by decide, by decide,
    by decide, by decide, arcSteps_zero, by decide, by decide⟩
  obtain ⟨hlow, hhigh⟩ := sweep_bounds a e
  exact ⟨sweep_of_gt, sweep_of_le, hlow, hhigh, sweep_eq_256_iff a e, ofNat_sweep a e⟩

/-! ## Angles -/

@[simp] theorem arcAngle_zero (a : Byte) (dw steps : Nat) : arcAngle a dw steps 0 = a := by
  rw [arcAngle, Nat.mul_zero, Nat.zero_div, Nat.add_zero, BitVec.ofNat_toNat, BitVec.setWidth_eq]

/-- After all steps the whole sweep has been added. -/
theorem arcAngle_last (a e : Byte) {steps : Nat} (h : 0 < steps) : arcAngle a (sweep a e) steps steps = e := by
  apply BitVec.eq_of_toNat_eq
  rw [arcAngle, Nat.mul_div_cancel _ h, BitVec.toNat_ofNat]
  exact start_add_sweep a e

/-! ## The box around the samples -/

/-- A coordinate of a sample, its offset from the centre: the floor of r·v/64 with |v| ≤ 64. -/
theorem asr_bounds (r : Byte) {v : Int} (hlow : -64 ≤ v) (hhigh : v ≤ 64) :
    -(r.toNat : Int) ≤ asr (operand r * v) 6 ∧ asr (operand r * v) 6 ≤ r.toNat := by
  have hupper : operand r * v ≤ operand r * 64 := Int.mul_le_mul_of_nonneg_left hhigh (operand_nonneg r)
  have hlower : operand r * -64 ≤ operand r * v := Int.mul_le_mul_of_nonneg_left hlow (operand_nonneg r)
  simp only [asr, operand] at *
  omega

theorem dcos_bounds (a : Byte) : -64 ≤ dcos a ∧ dcos a ≤ 64 := dsin_bounds (a + 64)

theorem arcSample_col_bounds (cx cy r a : Byte) (dw steps i : Nat) :
    (cx.toNat : Int) - r.toNat ≤ (arcSample cx cy r a dw steps i).col ∧
      (arcSample cx cy r a dw steps i).col ≤ (cx.toNat : Int) + r.toNat := by
  obtain ⟨hlow, hhigh⟩ := dcos_bounds (arcAngle a dw steps i)
  obtain ⟨hlower, hupper⟩ := asr_bounds r hlow hhigh
  simp only [arcSample, operand] at *
  omega

theorem arcSample_row_bounds (cx cy r a : Byte) (dw steps i : Nat) :
    (cy.toNat : Int) - r.toNat ≤ (arcSample cx cy r a dw steps i).row ∧
      (arcSample cx cy r a dw steps i).row ≤ (cy.toNat : Int) + r.toNat := by
  obtain ⟨hlow, hhigh⟩ := dsin_bounds (arcAngle a dw steps i)
  obtain ⟨hlower, hupper⟩ := asr_bounds r hlow hhigh
  simp only [arcSample, operand] at *
  omega

/-- Settles O43: the first and the last angle are the start and the end angle, which decide their samples. -/
theorem arcSamplesRunFromStartToEnd : Obligations.ArcSamplesRunFromStartToEnd := by
  refine ⟨fun cx cy r a e => ?_, fun cx cy r a dw steps i => ?_⟩
  · have hlast := arcAngle_last a e (arcSteps_pos r.toNat (sweep a e))
    refine ⟨arcAngle_zero _ _ _, hlast, ?_⟩
    rintro rfl
    rw [arcSample, arcSample, hlast, arcAngle_zero]
  · obtain ⟨hleft, hright⟩ := arcSample_col_bounds cx cy r a dw steps i
    obtain ⟨htop, hbottom⟩ := arcSample_row_bounds cx cy r a dw steps i
    exact ⟨hleft, hright, htop, hbottom⟩

end Sys2Proof.Machine
end

section
/-! ARC as a composite of checked lines (42_shape.md section 3, R108). -/

namespace Sys2Proof.Machine

/-- Sample `i` of the arc that ARC draws (R107). -/
def arcPoint (cx cy r a e : Byte) (i : Nat) : Point :=
  arcSample cx cy r a (sweep a e) (arcSteps r.toNat (sweep a e)) i

/-- The code of segment `i`, from sample `i` to the next, for a valid thickness and mode. -/
def segmentCode (cx cy r a e : Byte) (i : Nat) : ErrCode :=
  firstErr [checkPt (arcPoint cx cy r a e i).row (arcPoint cx cy r a e i).col,
    checkPt (arcPoint cx cy r a e (i + 1)).row (arcPoint cx cy r a e (i + 1)).col]

/-- The points of segment `i`. -/
def segmentPoints (cx cy r a e : Byte) (i : Nat) : List Point :=
  linePoints (arcPoint cx cy r a e i).col (arcPoint cx cy r a e i).row (arcPoint cx cy r a e (i + 1)).col
    (arcPoint cx cy r a e (i + 1)).row

/-- The points of the segments whose two samples are on the display. -/
def arcPoints (cx cy r a e : Byte) : List Point :=
  (List.range (arcSteps r.toNat (sweep a e))).flatMap fun i =>
    if (arcPoint cx cy r a e i).onDisplay = true ∧ (arcPoint cx cy r a e (i + 1)).onDisplay = true then
      segmentPoints cx cy r a e i
    else []

/-- The segments of an arc as checked drawings. -/
def arcParts (cx cy r a e t m : Byte) : List (List ErrCode × List Point) :=
  (List.range (arcSteps r.toNat (sweep a e))).map fun i =>
    ([checkTM t m, checkPt (arcPoint cx cy r a e i).row (arcPoint cx cy r a e i).col,
      checkPt (arcPoint cx cy r a e (i + 1)).row (arcPoint cx cy r a e (i + 1)).col], segmentPoints cx cy r a e i)

theorem arcSegments_eq (cx cy r a e t m : Byte) :
    arcSegments cx cy r a e t m = (arcParts cx cy r a e t m).map fun part => drawChecked part.1 t m part.2 := by
  rw [arcSegments, arcParts, List.map_map]
  rfl

theorem exec_arc_of_thick {t : Byte} (ht : 1 < t.toNat) (cx cy r a e m : Byte) (s : State) :
    exec (.arc cx cy r a e t m) s = .next { s with err := 5 } := if_pos ht

theorem exec_arc_of_thin {t : Byte} (ht : t.toNat ≤ 1) (cx cy r a e m : Byte) (s : State) :
    exec (.arc cx cy r a e t m) s =
      conclude (runAll ((arcParts cx cy r a e t m).map fun part => drawChecked part.1 t m part.2) s.fb) s := by
  rw [← arcSegments_eq]
  exact if_neg (Nat.not_lt.mpr ht)

theorem arcParts_ne_nil (cx cy r a e t m : Byte) : arcParts cx cy r a e t m ≠ [] := by
  simp [arcParts, Nat.ne_of_gt (arcSteps_pos _ _)]

/-- Settles O45: a bad thickness ends the command before its first segment, and a bad mode fails each of them. -/
theorem arcRejectsThicknessThenMode : Obligations.ArcRejectsThicknessThenMode := by
  refine fun cx cy r a e t m s => ⟨fun ht => exec_arc_of_thick ht cx cy r a e m s, fun ht hm => ?_⟩
  have hcheck : checkTM t m = .invalidMode := by rw [checkTM_eq, if_neg (Nat.not_lt.mpr ht), if_pos hm]
  rw [exec_arc_of_thin ht]
  refine conclude_runAll_of_all_err (arcParts_ne_nil cx cy r a e t m) (e := .invalidMode) (by decide)
    (fun part hpart => ?_) s
  obtain ⟨i, -, rfl⟩ := List.mem_map.mp hpart
  rw [hcheck, firstErr_cons_of_ne_ok (by decide)]

/-- A segment passes its checks exactly when its two samples are on the display. -/
theorem segmentCode_eq_ok_iff (cx cy r a e : Byte) (i : Nat) :
    segmentCode cx cy r a e i = .ok ↔
      (arcPoint cx cy r a e i).onDisplay = true ∧ (arcPoint cx cy r a e (i + 1)).onDisplay = true := by
  rw [segmentCode, firstErr_eq_ok]
  simp [checkPt_ok, onDisplay_iff]

/-- What ARC answers when thickness and mode are valid. -/
theorem exec_arc_of_valid {t m : Byte} (ht : t.toNat ≤ 1) (hm : validMode m = true) (cx cy r a e : Byte) (s : State) :
    exec (.arc cx cy r a e t m) s =
      .next (s.painted (modeOf m) (clusters t (arcPoints cx cy r a e))
        (firstErr ((List.range (arcSteps r.toNat (sweep a e))).map (segmentCode cx cy r a e)))) := by
  have hpoints : passedPoints (arcParts cx cy r a e t m) = arcPoints cx cy r a e := by
    simp only [passedPoints, arcParts, arcPoints, checkTM_of_valid ht hm, firstErr_ok_cons, List.flatMap_map,
      ← segmentCode_eq_ok_iff]
    rfl
  have hcode : ((arcParts cx cy r a e t m).map fun part => firstErr part.1) =
      (List.range (arcSteps r.toNat (sweep a e))).map (segmentCode cx cy r a e) := by
    rw [arcParts, List.map_map, checkTM_of_valid ht hm]
    rfl
  rw [exec_arc_of_thin ht, conclude_runAll, hpoints, hcode]

/-- Settles O46: ARC paints the segments that pass, and what is painted is what `Painted` says. -/
theorem arcPaintsItsSegmentsOnTheDisplay : Obligations.ArcPaintsItsSegmentsOnTheDisplay :=
  fun cx cy r a e _ _ s ht hm => ⟨_, exec_arc_of_valid ht hm cx cy r a e s, painted_spec _ _ _ s⟩

/-! ## Arcs that fit the display -/

/-- A painted point of the display has the mode's value. -/
theorem pixel_painted_of_mem {ps : List Point} {p : Point} (hmem : p ∈ ps) (hp : p.onDisplay = true) (m : Mode)
    (t : Byte) (e : ErrCode) (s : State) :
    (s.painted m (clusters t ps) e).fb.pixel p.row.toNat p.col.toNat = m.bit := by
  obtain ⟨hr, hr', hc, hc'⟩ := (onDisplay_iff p).mp hp
  have hpoint : (⟨p.row.toNat, p.col.toNat⟩ : Point) = p := by
    rw [Int.toNat_of_nonneg hr, Int.toNat_of_nonneg hc]
  refine (pixel_paint m _ s.fb (by omega) (by omega)).trans (if_pos ?_)
  rw [hpoint]
  exact List.mem_flatMap.mpr ⟨p, hmem, mem_cluster_self t p⟩

/-- The two samples of a segment that passes are among the points of the arc. -/
theorem samples_mem_arcPoints {cx cy r a e : Byte} {i : Nat} (hi : i < arcSteps r.toNat (sweep a e))
    (h : segmentCode cx cy r a e i = .ok) :
    arcPoint cx cy r a e i ∈ arcPoints cx cy r a e ∧ arcPoint cx cy r a e (i + 1) ∈ arcPoints cx cy r a e := by
  have hon := (segmentCode_eq_ok_iff cx cy r a e i).mp h
  have hsub : ∀ p ∈ segmentPoints cx cy r a e i, p ∈ arcPoints cx cy r a e := fun p hp =>
    List.mem_flatMap.mpr ⟨i, List.mem_range.mpr hi, by rwa [if_pos hon]⟩
  obtain ⟨hfirst, hsecond⟩ := endpoints_mem_linePoints (arcPoint cx cy r a e i).col (arcPoint cx cy r a e i).row
    (arcPoint cx cy r a e (i + 1)).col (arcPoint cx cy r a e (i + 1)).row
  exact ⟨hsub _ hfirst, hsub _ hsecond⟩

/-- Sample 0 is at the start angle. -/
theorem arcPoint_zero (cx cy r a e : Byte) :
    arcPoint cx cy r a e 0 =
      ⟨operand cy + asr (operand r * dsin a) 6, operand cx + asr (operand r * dcos a) 6⟩ := by
  rw [arcPoint, arcSample, arcAngle_zero]

/-- The last sample is at the end angle. -/
theorem arcPoint_last (cx cy r a e : Byte) :
    arcPoint cx cy r a e (arcSteps r.toNat (sweep a e)) =
      ⟨operand cy + asr (operand r * dsin e) 6, operand cx + asr (operand r * dcos e) 6⟩ := by
  rw [arcPoint, arcSample, arcAngle_last a e (arcSteps_pos _ _)]

/-- Settles O47: no sample is further than the radius from the centre, so every segment passes its checks; the first
begins at the start sample, and the last ends at the end sample. -/
theorem arcThatFitsSucceeds : Obligations.ArcThatFitsSucceeds := by
  intro cx cy r a e t m s ht hm hleft hright htop hbottom
  have hon : ∀ i, (arcPoint cx cy r a e i).onDisplay = true := fun i => by
    have hcol := arcSample_col_bounds cx cy r a (sweep a e) (arcSteps r.toNat (sweep a e)) i
    have hrow := arcSample_row_bounds cx cy r a (sweep a e) (arcSteps r.toNat (sweep a e)) i
    rw [onDisplay_iff, arcPoint]
    omega
  have hcode : ∀ i, segmentCode cx cy r a e i = .ok := fun i =>
    (segmentCode_eq_ok_iff cx cy r a e i).mpr ⟨hon i, hon (i + 1)⟩
  obtain ⟨steps, hsteps⟩ := Nat.exists_eq_succ_of_ne_zero (Nat.ne_of_gt (arcSteps_pos r.toNat (sweep a e)))
  refine ⟨_, exec_arc_of_valid ht hm cx cy r a e s, ?err, ?start, ?final⟩
  case err =>
    refine (toByte_eq_zero_iff _).mpr ((firstErr_eq_ok _).mpr fun c hc => ?_)
    obtain ⟨i, -, rfl⟩ := List.mem_map.mp hc
    exact hcode i
  case start =>
    have hmem := (samples_mem_arcPoints (arcSteps_pos r.toNat (sweep a e)) (hcode 0)).1
    have hpixel := pixel_painted_of_mem hmem (hon 0) (modeOf m) t
    rw [arcPoint_zero] at hpixel
    exact hpixel _ s
  case final =>
    have hmem := (samples_mem_arcPoints (hsteps ▸ Nat.lt_succ_self steps) (hcode steps)).2
    have hpixel := pixel_painted_of_mem hmem (hon (steps + 1)) (modeOf m) t
    rw [← Nat.succ_eq_add_one, ← hsteps, arcPoint_last] at hpixel
    exact hpixel _ s

/-! ## Radius 0 -/

/-- With radius 0 every sample is the centre. -/
theorem arcPoint_of_radius_zero (cx cy a e : Byte) (i : Nat) : arcPoint cx cy 0 a e i = ⟨operand cy, operand cx⟩ := by
  have hzero : operand 0 = 0 := rfl
  simp only [arcPoint, arcSample, asr, hzero, zero_mul, Int.zero_ediv, Int.add_zero]

theorem linePoints_self (x y : Int) : linePoints x y x y = [⟨y, x⟩] := by
  rw [linePoints_horizontal]
  simp [hLinePoints, loopRange]

/-- An arc of radius 0 has one segment, from its centre to its centre. -/
theorem arcParts_of_radius_zero (cx cy a e t m : Byte) :
    arcParts cx cy 0 a e t m =
      [([checkTM t m, checkPt (operand cy) (operand cx), checkPt (operand cy) (operand cx)],
        [⟨operand cy, operand cx⟩])] := by
  have hsteps : arcSteps (0 : Byte).toNat (sweep a e) = 1 := arcSteps_zero _
  simp only [arcParts, segmentPoints, hsteps, List.range_one, List.map_cons, List.map_nil, arcPoint_of_radius_zero,
    linePoints_self]

/-- A check that is made again changes no code. -/
theorem firstErr_repeated (e e' : ErrCode) : firstErr [e, e', e'] = firstErr [e, e'] := by
  rw [firstErr_cons, firstErr_cons e, firstErr_cons e', firstErr_singleton, ite_self]

/-- Settles O48: ARC's one segment has POINT's checks, the centre checked twice, and POINT's point. -/
theorem arcOfRadiusZeroIsAPoint : Obligations.ArcOfRadiusZeroIsAPoint := by
  intro cx cy a e t m s
  rcases Nat.lt_or_ge 1 t.toNat with ht | ht
  · rw [exec_arc_of_thick ht]
    refine (conclude_drawChecked_of_err ?_ (by decide) _ _ _ s).symm
    rw [firstErr_point, if_pos ht]
  · rw [exec_arc_of_thin ht, conclude_runAll, exec_point, conclude_drawChecked, arcParts_of_radius_zero]
    simp only [passedPoints, List.flatMap_cons, List.flatMap_nil, List.append_nil, List.map_cons, List.map_nil,
      firstErr_singleton, firstErr_repeated]
    split <;> rfl

end Sys2Proof.Machine
end

section
/-! How near the circle an arc's samples lie (42_shape.md section 3, R110). A coordinate of a sample is r·v/64 rounded
down, so it is at least as large as the floor and at most as large as the ceiling of its magnitude, whatever its sign;
and the magnitudes of sine and cosine are one pair of entries of the quarter wave. -/

namespace Sys2Proof.Machine

/-! ## Sine and cosine as a pair of table entries -/

/-- The sine of an angle that is `q` quadrants and `i` further, up to sign: the index runs up in even quadrants and down
in odd ones. -/
theorem dsin_quadrant {q i : Nat} (hi : i < 64) :
    dsin (BitVec.ofNat 8 (64 * q + i)) = (if q % 4 < 2 then 1 else -1) * sinTab (if q % 2 = 0 then i else 64 - i) := by
  have hmod : BitVec.ofNat 8 (64 * q + i) = BitVec.ofNat 8 (64 * (q % 4) + i) := by
    apply BitVec.eq_of_toNat_eq
    rw [BitVec.toNat_ofNat, BitVec.toNat_ofNat]
    omega
  have hparity : q % 2 = q % 4 % 2 := by omega
  have hq : q % 4 < 4 := Nat.mod_lt q (by decide)
  rw [hmod, hparity]
  generalize q % 4 = quadrant at hq
  interval_cases quadrant
  · simpa using dsin_ofNat hi
  · simpa using dsin_ofNat_64_add hi
  · simpa using dsin_ofNat_128_add hi
  · simpa using dsin_ofNat_192_add hi

theorem natAbs_dsin_quadrant {q i : Nat} (hi : i < 64) :
    (dsin (BitVec.ofNat 8 (64 * q + i))).natAbs = sinTable.getD (if q % 2 = 0 then i else 64 - i) 0 := by
  rw [dsin_quadrant hi, Int.natAbs_mul]
  split <;> simp [sinTab]

/-- Sine and cosine of an angle have the magnitudes of two entries of the table that stand opposite each other: a
quarter turn exchanges the even and the odd quadrants. -/
theorem natAbs_dsin_dcos (a : Byte) :
    ∃ i ≤ 64, (dsin a).natAbs = sinTable.getD i 0 ∧ (dcos a).natAbs = sinTable.getD (64 - i) 0 := by
  have hi : a.toNat % 64 < 64 := Nat.mod_lt _ (by decide)
  have hsin : a = BitVec.ofNat 8 (64 * (a.toNat / 64) + a.toNat % 64) := by
    rw [Nat.div_add_mod, BitVec.ofNat_toNat, BitVec.setWidth_eq]
  have hcos : a + 64 = BitVec.ofNat 8 (64 * (a.toNat / 64 + 1) + a.toNat % 64) := by
    apply BitVec.eq_of_toNat_eq
    rw [BitVec.toNat_add, BitVec.toNat_ofNat]
    show (a.toNat + 64) % 256 = _
    omega
  have hdsin := natAbs_dsin_quadrant (q := a.toNat / 64) hi
  have hdcos := natAbs_dsin_quadrant (q := a.toNat / 64 + 1) hi
  rw [← hsin] at hdsin
  rw [← hcos] at hdcos
  rcases Nat.mod_two_eq_zero_or_one (a.toNat / 64) with heven | hodd
  · rw [if_pos heven] at hdsin
    rw [if_neg (by omega)] at hdcos
    exact ⟨_, Nat.le_of_lt hi, hdsin, hdcos⟩
  · rw [if_neg (by omega)] at hdsin
    rw [if_pos (by omega)] at hdcos
    refine ⟨_, Nat.sub_le 64 _, hdsin, ?_⟩
    rw [Nat.sub_sub_self (Nat.le_of_lt hi)]
    exact hdcos

/-! ## Rounding -/

/-- A coordinate is the floor of its magnitude, or the negative of the ceiling. -/
theorem asr_eq_floor_or_neg_ceil (r : Byte) (v : Int) :
    asr (operand r * v) 6 = (r.toNat * v.natAbs / 64 : Nat) ∨
      asr (operand r * v) 6 = -((r.toNat * v.natAbs + 63) / 64 : Nat) := by
  rcases Int.le_total 0 v with hv | hv
  · left
    have hprod : operand r * v = (r.toNat * v.natAbs : Nat) := by
      rw [operand, Nat.cast_mul, Int.natAbs_of_nonneg hv]
    rw [asr, hprod]
    omega
  · right
    have hprod : operand r * v = -(r.toNat * v.natAbs : Nat) := by
      rw [operand, Nat.cast_mul, Int.ofNat_natAbs_of_nonpos hv]
      ring
    rw [asr, hprod]
    omega

/-- The square of a coordinate lies between those of the floor and the ceiling of its magnitude. -/
theorem asr_sq_bounds (r : Byte) (v : Int) :
    ((r.toNat * v.natAbs / 64 : Nat) : Int) ^ 2 ≤ asr (operand r * v) 6 ^ 2 ∧
      asr (operand r * v) 6 ^ 2 ≤ ((r.toNat * v.natAbs + 63) / 64 : Nat) ^ 2 := by
  have hle : ((r.toNat * v.natAbs / 64 : Nat) : Int) ≤ ((r.toNat * v.natAbs + 63) / 64 : Nat) := by omega
  have hsq := pow_le_pow_left₀ (Int.natCast_nonneg _) hle 2
  rcases asr_eq_floor_or_neg_ceil r v with h | h
  · rw [h]
    exact ⟨le_refl _, hsq⟩
  · rw [h, neg_sq]
    exact ⟨hsq, le_refl _⟩

/-! ## The table near the circle -/

/-- With radius `r` and the table entry `i` for one coordinate, every rounding of the two coordinates is within `tol`
hundredths of the radius. -/
def nearCircle (tol r i : Nat) : Bool :=
  decide (10000 * (((r * sinTable.getD i 0 + 63) / 64) ^ 2 + ((r * sinTable.getD (64 - i) 0 + 63) / 64) ^ 2) ≤
      (100 * r + tol) ^ 2) &&
    decide ((100 * r - tol) ^ 2 ≤
      10000 * ((r * sinTable.getD i 0 / 64) ^ 2 + (r * sinTable.getD (64 - i) 0 / 64) ^ 2))


/-- `nearCircle` for every radius up to `rmax` and every entry of the table. -/
def nearCircleUpTo (tol rmax : Nat) : Bool :=
  (List.range (rmax + 1)).all fun r => (List.range 65).all fun i => nearCircle tol r i

theorem nearCircle_of_upTo {tol rmax : Nat} (h : nearCircleUpTo tol rmax = true) {r i : Nat} (hr : r ≤ rmax)
    (hi : i ≤ 64) : nearCircle tol r i = true := by
  simp only [nearCircleUpTo, List.all_eq_true, List.mem_range] at h
  exact h r (Nat.lt_succ_of_le hr) i (Nat.lt_succ_of_le hi)

theorem nearCircleUpTo_31 : nearCircleUpTo 155 31 = true := by decide

theorem nearCircleUpTo_63 : nearCircleUpTo 168 63 = true := by decide

/-- The squared distance of a sample from the centre, between the bounds of R110. -/
theorem arcSample_near {r : Byte} {tol : Nat} (h : ∀ i ≤ 64, nearCircle tol r.toNat i = true) (cx cy a : Byte)
    (dw steps i : Nat) {d2 : Int}
    (hd2 : d2 = ((arcSample cx cy r a dw steps i).col - cx.toNat) ^ 2 +
      ((arcSample cx cy r a dw steps i).row - cy.toNat) ^ 2) :
    10000 * d2 ≤ (100 * r.toNat + tol) ^ 2 ∧ ((100 * r.toNat - tol : Nat) : Int) ^ 2 ≤ 10000 * d2 := by
  have hcol : (arcSample cx cy r a dw steps i).col - cx.toNat = asr (operand r * dcos (arcAngle a dw steps i)) 6 :=
    add_sub_cancel_left _ _
  have hrow : (arcSample cx cy r a dw steps i).row - cy.toNat = asr (operand r * dsin (arcAngle a dw steps i)) 6 :=
    add_sub_cancel_left _ _
  obtain ⟨j, hj, hsin, hcos⟩ := natAbs_dsin_dcos (arcAngle a dw steps i)
  obtain ⟨hx1, hx2⟩ := asr_sq_bounds r (dcos (arcAngle a dw steps i))
  obtain ⟨hy1, hy2⟩ := asr_sq_bounds r (dsin (arcAngle a dw steps i))
  have htable := h j hj
  rw [nearCircle, Bool.and_eq_true, decide_eq_true_eq, decide_eq_true_eq, ← hsin, ← hcos] at htable
  obtain ⟨hupper, hlower⟩ := htable
  have hupper' := Int.ofNat_le.mpr hupper
  have hlower' := Int.ofNat_le.mpr hlower
  push_cast at hupper' hlower' hx1 hx2 hy1 hy2 ⊢
  rw [hd2, hcol, hrow]
  constructor <;> linarith

/-- Settles O44: every sample has the magnitudes of one table entry and its opposite, and for these the bounds are
checked for each radius; the two samples of the rule are evaluated. -/
theorem arcSamplesStayNearTheCircle : Obligations.ArcSamplesStayNearTheCircle := by
  refine ⟨fun cx cy r a dw steps i tol d2 htol hd2 => ?_, fun cx cy => ?_, fun cx cy => ?_⟩
  · have hnear : ∃ n : Nat, tol = n ∧ ∀ i ≤ 64, nearCircle n r.toNat i = true := by
      rcases htol with ⟨hr, rfl⟩ | ⟨hr, rfl⟩
      · exact ⟨155, rfl, fun _ => nearCircle_of_upTo nearCircleUpTo_31 hr⟩
      · exact ⟨168, rfl, fun _ => nearCircle_of_upTo nearCircleUpTo_63 hr⟩
    obtain ⟨n, rfl, htable⟩ := hnear
    obtain ⟨hupper, hlower⟩ := arcSample_near htable cx cy a dw steps i hd2
    refine ⟨hupper, ?_⟩
    rcases Nat.lt_or_ge n (100 * r.toNat) with hlt | hge
    · rw [Nat.cast_sub (Nat.le_of_lt hlt)] at hlower
      push_cast at hlower
      exact .inr hlower
    · exact .inl (by omega)
  · have hcol : asr (operand 3 * dcos (arcAngle 160 256 9 0)) 6 = -3 := by decide
    have hrow : asr (operand 3 * dsin (arcAngle 160 256 9 0)) 6 = -3 := by decide
    rw [arcSample, hcol, hrow]
    rfl
  · have hcol : asr (operand 54 * dcos (arcAngle 32 256 169 0)) 6 = 37 := by decide
    have hrow : asr (operand 54 * dsin (arcAngle 32 256 169 0)) 6 = 37 := by decide
    rw [arcSample, hcol, hrow]
    rfl

end Sys2Proof.Machine
end

section
/-! PUTCAT (43_text.md R130, R131): the bytes and the pixels it writes, and its checks. -/

namespace Sys2Proof.Machine

/-! ## Glyphs -/

theorem exists_glyphBytes {rom : GlyphRom} {c : Byte} (hlow : 0x20 ≤ c.toNat) (hhigh : c.toNat ≤ rom.last) :
    ∃ g, glyphBytes rom c = some g :=
  Option.isSome_iff_exists.mp ((glyphBytes_isSome rom c).mpr ⟨hlow, hhigh⟩)

theorem glyphBytes_eq_none {rom : GlyphRom} {c : Byte} (h : c.toNat < 0x20 ∨ rom.last < c.toNat) :
    glyphBytes rom c = none := if_pos h

/-- The bytes of a glyph, by their place in the glyph ROM (R120). -/
theorem getElem?_glyphBytes {rom : GlyphRom} {c : Byte} {g : List Byte} (hg : glyphBytes rom c = some g) {k : Nat}
    (hk : k < 5) : g[k]? = some (rom.byte (5 * (c.toNat - 0x20) + k)) := by
  obtain ⟨-, rfl⟩ := glyphBytes_eq_some.mp hg
  rw [List.getElem?_map, List.getElem?_range hk, Option.map_some]

/-- Only bits 6 to 0 of a glyph byte can be 1 (R29). -/
theorem getLsbD_glyphBytes {rom : GlyphRom} {c : Byte} {g : List Byte} (hg : glyphBytes rom c = some g) (k : Nat)
    {b : Nat} (hb : 7 ≤ b) : (g.getD k 0).getLsbD b = false := by
  rw [List.getD_eq_getElem?_getD]
  by_cases hk : k < 5
  · rw [getElem?_glyphBytes hg hk, Option.getD_some, GlyphRom.byte, BitVec.getLsbD_setWidth,
      BitVec.getLsbD_of_ge _ b hb, Bool.and_false]
  · have hlength := glyphBytes_length hg
    rw [List.getElem?_eq_none (by omega)]
    exact BitVec.getLsbD_zero

/-! ## The bytes -/

/-- PUTCAT with its checks passed: the framebuffer after the shifted blit, byte by byte, which is the same for all
states with one framebuffer (R130, R132). -/
theorem exec_putcat_of_glyph {row col c : Byte} {g : List Byte} (hr : row.toNat ≤ 56) (hc : col.toNat ≤ 120)
    (hg : glyphBytes Config.glyphRom c = some g) (fb : Memory) :
    ∃ fb', (∀ s : State, s.fb = fb → exec (.putcat row col c) s = .next { s with fb := fb', err := 0 }) ∧
      (fb.wf = true → fb'.wf = true) ∧
      ∀ a : Nat, fb'.read a =
        if row.toNat / 8 * 128 + col.toNat ≤ a ∧ a < row.toNat / 8 * 128 + col.toNat + 5 then
          fb.read a ||| (g.getD (a - (row.toNat / 8 * 128 + col.toNat)) 0 <<< (row.toNat % 8))
        else if row.toNat % 8 ≠ 0 ∧ (row.toNat / 8 + 1) * 128 + col.toNat ≤ a ∧
            a < (row.toNat / 8 + 1) * 128 + col.toNat + 5 then
          fb.read a ||| (g.getD (a - ((row.toNat / 8 + 1) * 128 + col.toNat)) 0 >>> (8 - row.toNat % 8))
        else fb.read a := by
  have hlength := glyphBytes_length hg
  obtain ⟨fb', hblit, hwf, hread⟩ := shiftBlit_spec (page := row.toNat / 8) (shift := row.toNat % 8) (by omega)
    (fun _ => by omega) g col.toNat fb (by omega)
  rw [hlength] at hread
  refine ⟨fb', ?_, hwf, hread⟩
  rintro s rfl
  exact exec_putcat_of_blit hr hc hg hblit

/-- Settles O55: a supported code has a glyph, and with the corner in range PUTCAT is its shifted blit. -/
theorem putcatDrawsItsShiftedGlyph : Obligations.PutcatDrawsItsShiftedGlyph := by
  intro row col c s hr hc hlow hhigh
  obtain ⟨g, hg⟩ := exists_glyphBytes hlow hhigh
  obtain ⟨fb, hexec, -, hread⟩ := exec_putcat_of_glyph hr hc hg s.fb
  exact ⟨_, g, hg, hexec s rfl, rfl, hread⟩

/-! ## The pixels -/

theorem pixel_eq_getLsbD (fb : Memory) {r k : Nat} (hr : r < 64) (hk : k < 128) :
    fb.pixel r k = (fb.read (r / 8 * 128 + k)).getLsbD (r % 8) := by
  rw [Memory.pixel, pixelAddr_toNat hr hk, pixelAddr_bit]

/-- Settles O56: a pixel of the glyph's columns is in the target page, where its bit comes from the shifted byte, or in
the next page, where it comes from the spill; the bits of both are those of the unshifted byte, `row` further down. -/
theorem putcatPlacesGlyphPixels : Obligations.PutcatPlacesGlyphPixels := by
  intro row col c g s hr hc hg
  obtain ⟨fb, hexec, -, hread⟩ := exec_putcat_of_glyph hr hc hg s.fb
  refine ⟨_, hexec s rfl, fun r k hrow hcol => ?_⟩
  have hbit : (decide (row.toNat ≤ r ∧ r < row.toNat + 7 ∧ col.toNat ≤ k ∧ k < col.toNat + 5) &&
      (g.getD (k - col.toNat) 0).getLsbD (r - row.toNat)) =
      (decide (row.toNat ≤ r ∧ col.toNat ≤ k ∧ k < col.toNat + 5) &&
        (g.getD (k - col.toNat) 0).getLsbD (r - row.toNat)) := by
    by_cases h7 : r < row.toNat + 7
    · simp only [h7, true_and]
    · rw [getLsbD_glyphBytes hg _ (by omega), Bool.and_false, Bool.and_false]
  rw [hbit, pixel_eq_getLsbD _ hrow hcol, pixel_eq_getLsbD _ hrow hcol]
  show (fb.read _).getLsbD _ = _
  rw [hread]
  by_cases hC : col.toNat ≤ k ∧ k < col.toNat + 5
  · by_cases hpage : r / 8 = row.toNat / 8
    · have hoffset : r / 8 * 128 + k - (row.toNat / 8 * 128 + col.toNat) = k - col.toNat := by omega
      rw [if_pos (by omega), hoffset, BitVec.getLsbD_or, BitVec.getLsbD_shiftLeft]
      rcases Nat.lt_or_ge r row.toNat with habove | hbelow
      · have hshift : r % 8 < row.toNat % 8 := by omega
        simp [hshift, Nat.not_le.mpr habove]
      · have hshift : ¬r % 8 < row.toNat % 8 := by omega
        have hindex : r % 8 - row.toNat % 8 = r - row.toNat := by omega
        simp [hshift, hindex, hbelow, hC, Nat.mod_lt]
    · by_cases hnext : row.toNat % 8 ≠ 0 ∧ r / 8 = row.toNat / 8 + 1
      · have hoffset : r / 8 * 128 + k - ((row.toNat / 8 + 1) * 128 + col.toNat) = k - col.toNat := by omega
        have hindex : 8 - row.toNat % 8 + r % 8 = r - row.toNat := by omega
        rw [if_neg (by omega), if_pos (by omega), hoffset, BitVec.getLsbD_or, BitVec.getLsbD_ushiftRight, hindex,
          decide_eq_true (show _ ∧ _ from ⟨by omega, hC⟩), Bool.true_and]
      · rw [if_neg (by omega), if_neg (by omega)]
        rcases Nat.lt_or_ge r row.toNat with habove | hbelow
        · rw [decide_eq_false (by omega), Bool.false_and, Bool.or_false]
        · rw [getLsbD_glyphBytes hg _ (by omega), Bool.and_false, Bool.or_false]
  · rw [if_neg (by omega), if_neg (by omega), decide_eq_false (by omega), Bool.false_and, Bool.or_false]

/-! ## The checks -/

/-- PUTCAT fails one of its checks in every state, or has its corner in range and a glyph. -/
theorem exec_putcat_cases (row col c : Byte) :
    (∃ e : ErrCode, ∀ s, exec (.putcat row col c) s = .next { s with err := e.toByte }) ∨
      row.toNat ≤ 56 ∧ col.toNat ≤ 120 ∧ ∃ g, glyphBytes Config.glyphRom c = some g := by
  rcases Nat.lt_or_ge 56 row.toNat with hr | hr
  · exact .inl ⟨.outOfRangeRow, exec_putcat_of_row hr col c⟩
  · rcases Nat.lt_or_ge 120 col.toNat with hc | hc
    · exact .inl ⟨.outOfRangeCol, exec_putcat_of_col hr hc c⟩
    · cases hg : glyphBytes Config.glyphRom c with
      | none => exact .inl ⟨.unsupportedCharacter, exec_putcat_of_char hr hc hg⟩
      | some g => exact .inr ⟨hr, hc, g, rfl⟩

/-- Settles O57: each of the three failing checks, in their order. -/
theorem putcatReportsItsFirstFailingCheck : Obligations.PutcatReportsItsFirstFailingCheck := by
  intro row col c s e he hne
  split at he
  next hrow => exact he ▸ exec_putcat_of_row hrow col c s
  next hrow =>
    split at he
    next hcol => exact he ▸ exec_putcat_of_col (by omega) hcol c s
    next hcol =>
      split at he
      next hchar => exact he ▸ exec_putcat_of_char (by omega) (by omega) (glyphBytes_eq_none hchar) s
      next => exact absurd he hne

end Sys2Proof.Machine
end

section
/-! PUTC (43_text.md R122 to R124): the line-feed, the glyph at the cursor, and the stop on a page that is none. -/

namespace Sys2Proof.Machine

/-! ## The cursor -/

theorem normalisePage_eq_mod {page : Nat} (h : page ≤ 8) : normalisePage page = page % 8 := by
  rw [normalisePage]
  split <;> omega

theorem normalisePage_of_ne {page : Nat} (h : page ≠ 8) : normalisePage page = page := if_neg h

/-- The cursor after the wraps, for a page counter that a rule can produce (R124). -/
theorem glyphCursor_eq {page : Nat} (h : page ≤ 8) (col : Nat) :
    glyphCursor page col =
      (if col ≤ 121 then page % 8 else (page % 8 + 1) % 8, if col ≤ 121 then col else 0) := by
  by_cases hcol : col ≤ 121
  · rw [glyphCursor_of_le hcol, if_pos hcol, if_pos hcol, normalisePage_eq_mod h]
  · have hwide : exceedsWidth col := by
      rw [exceedsWidth]
      omega
    rw [glyphCursor, if_pos hwide, if_neg hcol, if_neg hcol, normalisePage_eq_mod h,
      normalisePage_eq_mod (by omega)]

/-- The page counters 9 to 15 stay above 8 through the wraps. -/
theorem glyphCursor_page_of_ge {page : Nat} (h : 9 ≤ page) (col : Nat) : 8 < (glyphCursor page col).1 := by
  rw [glyphCursor, normalisePage_of_ne (show page ≠ 8 by omega), normalisePage_of_ne (show page + 1 ≠ 8 by omega)]
  split
  · exact Nat.lt_succ_of_lt h
  · exact h

/-! ## The three ways of PUTC -/

theorem exec_putc_newline (s : State) :
    exec (.putc 0x0A) s = deliver (lineFeed { s with ret := 0x0A }) := rfl

theorem exec_putc_of_glyph {c : Byte} {g : List Byte} (hg : glyphBytes Config.glyphRom c = some g) (s : State) :
    exec (.putc c) s = deliver (putGlyph g { s with ret := c }) := by
  have hc : c ≠ 0x0A := by
    obtain ⟨⟨hlow, -⟩, -⟩ := glyphBytes_eq_some.mp hg
    rintro rfl
    exact absurd hlow (by decide)
  rw [exec, execPutc, putcWith, if_neg hc, hg]

theorem exec_putc_of_unsupported {c : Byte} (hc : c ≠ 0x0A) (hg : glyphBytes Config.glyphRom c = none) (s : State) :
    exec (.putc c) s = .next { s with ret := c, err := 6 } := by
  rw [exec, execPutc, putcWith, if_neg hc, hg]
  rfl

/-- Settles O49: a code without a glyph that is not the line-feed. -/
theorem putcOfAnUnsupportedCharacter : Obligations.PutcOfAnUnsupportedCharacter :=
  fun _ s hc h => exec_putc_of_unsupported hc (glyphBytes_eq_none h) s

/-! ## The line-feed -/

/-- The padding of a page from any column on: where the column is past the last one there is nothing to pad (R123). -/
theorem zeroSpan_to_end {page : Nat} (hp : page < 8) (col : Nat) (fb : Memory) :
    ∃ fb', zeroSpan page col (128 - col) fb = .ok fb' ∧ (fb.wf = true → fb'.wf = true) ∧
      ∀ a, fb'.read a = if page * 128 + col ≤ a ∧ a ≤ page * 128 + 127 then 0 else fb.read a := by
  by_cases hcol : col ≤ 128
  · obtain ⟨fb', hspan, hwf, hread⟩ := zeroSpan_spec hp (128 - col) col fb (by omega)
    refine ⟨fb', hspan, hwf, fun a => (hread a).trans ?_⟩
    have hiff : (page * 128 + col ≤ a ∧ a < page * 128 + col + (128 - col)) ↔
        (page * 128 + col ≤ a ∧ a ≤ page * 128 + 127) := by omega
    simp only [hiff]
  · rw [Nat.sub_eq_zero_of_le (by omega)]
    exact ⟨fb, rfl, id, fun a => by rw [if_neg (by omega)]⟩

/-- The line-feed from a page counter that a rule can produce. -/
theorem exec_putc_newline_of_le {s : State} (h : s.curPage.toNat ≤ 8) :
    ∃ fb, exec (.putc 0x0A) s = .next { s with
        fb := fb, curPage := BitVec.ofNat 4 (s.curPage.toNat % 8 + 1), curCol := 0, ret := 0x0A, err := 0 } ∧
      (s.fb.wf = true → fb.wf = true) ∧
      ∀ a, fb.read a =
        if s.curPage.toNat % 8 * 128 + s.curCol.toNat ≤ a ∧ a ≤ s.curPage.toNat % 8 * 128 + 127 then 0
        else s.fb.read a := by
  have hpage : s.curPage.toNat % 8 < 8 := Nat.mod_lt _ (by decide)
  obtain ⟨fb, hspan, hwf, hread⟩ := zeroSpan_to_end hpage s.curCol.toNat s.fb
  refine ⟨fb, ?_, hwf, hread⟩
  rw [exec_putc_newline]
  simp only [lineFeed, normalisePage_eq_mod h, hpage, if_true, hspan]
  rfl

/-- A line-feed from another page counter faults. -/
theorem exec_putc_newline_of_ge {s : State} (h : 9 ≤ s.curPage.toNat) :
    exec (.putc 0x0A) s = .fault (.noSuchCell s.curPage.toNat s.curCol.toNat) := by
  have hpage : ¬s.curPage.toNat < 8 := by omega
  rw [exec_putc_newline]
  simp only [lineFeed, normalisePage_of_ne (show s.curPage.toNat ≠ 8 by omega), hpage, if_false]
  rfl

/-- Settles O50: the page after the one that was padded is at most 8, which `CUR_PAGE` holds without loss. -/
theorem lineFeedPadsThePage : Obligations.LineFeedPadsThePage := by
  intro s h
  obtain ⟨fb, hexec, -, hread⟩ := exec_putc_newline_of_le h
  refine ⟨_, hexec, hread, ?_, rfl⟩
  exact (BitVec.toNat_ofNat _ 4).trans (Nat.mod_eq_of_lt (by omega))

/-! ## Glyphs at the cursor -/

theorem exec_putc_of_blit {c : Byte} {g : List Byte} {s : State} {fb : Memory}
    (hg : glyphBytes Config.glyphRom c = some g)
    (hblit : orBlit (glyphCursor s.curPage.toNat s.curCol.toNat).1 (glyphCursor s.curPage.toNat s.curCol.toNat).2 g
      s.fb = .ok fb) :
    exec (.putc c) s = .next { s with
      fb := fb
      curPage := BitVec.ofNat 4 (glyphCursor s.curPage.toNat s.curCol.toNat).1
      curCol := BitVec.ofNat 8 ((glyphCursor s.curPage.toNat s.curCol.toNat).2 + 6)
      ret := c
      err := 0 } := by
  rw [exec_putc_of_glyph hg]
  simp only [putGlyph, hblit]
  rfl

/-- PUTC of a supported character from a page counter that a rule can produce. -/
theorem exec_putc_of_glyph_of_le {c : Byte} {g : List Byte} {s : State} (hg : glyphBytes Config.glyphRom c = some g)
    (h : s.curPage.toNat ≤ 8) :
    ∃ fb, exec (.putc c) s = .next { s with
        fb := fb
        curPage := BitVec.ofNat 4 (glyphCursor s.curPage.toNat s.curCol.toNat).1
        curCol := BitVec.ofNat 8 ((glyphCursor s.curPage.toNat s.curCol.toNat).2 + 6)
        ret := c
        err := 0 } ∧
      (s.fb.wf = true → fb.wf = true) ∧
      ∀ page col, glyphCursor s.curPage.toNat s.curCol.toNat = (page, col) → ∀ a, fb.read a =
        if page * 128 + col ≤ a ∧ a < page * 128 + col + 5 then s.fb.read a ||| g.getD (a - (page * 128 + col)) 0
        else s.fb.read a := by
  obtain ⟨hpage, hcol⟩ := glyphCursor_lt (col := s.curCol.toNat) h
  have hlength := glyphBytes_length hg
  obtain ⟨fb, hblit, hwf, hread⟩ := orBlit_spec hpage g (glyphCursor s.curPage.toNat s.curCol.toNat).2 s.fb (by omega)
  refine ⟨fb, exec_putc_of_blit hg hblit, hwf, fun page col hcursor => ?_⟩
  rw [hcursor, hlength] at hread
  exact hread

/-- PUTC of a supported character from another page counter faults at its first column. -/
theorem exec_putc_of_glyph_of_ge {c : Byte} {g : List Byte} {s : State} (hg : glyphBytes Config.glyphRom c = some g)
    (h : 9 ≤ s.curPage.toNat) :
    exec (.putc c) s = .fault (.noSuchCell (glyphCursor s.curPage.toNat s.curCol.toNat).1
      (glyphCursor s.curPage.toNat s.curCol.toNat).2) := by
  have hpage := glyphCursor_page_of_ge h s.curCol.toNat
  obtain ⟨v, vs, rfl⟩ : ∃ v vs, g = v :: vs :=
    List.exists_cons_of_length_pos (by rw [glyphBytes_length hg]; decide)
  rw [exec_putc_of_glyph hg]
  simp only [putGlyph, orBlit, orCell, cellAt_error (show ¬(_ ∧ _) from fun hcell => Nat.lt_asymm hpage (hcell.1))]
  rfl

/-- Settles O51: the glyph is OR-ed in at the cursor after the wraps, and the new cursor fits its registers. -/
theorem putcDrawsItsGlyphAtTheCursor : Obligations.PutcDrawsItsGlyphAtTheCursor := by
  intro c s hlow hhigh h
  obtain ⟨g, hg⟩ := exists_glyphBytes hlow hhigh
  obtain ⟨fb, hexec, -, hread⟩ := exec_putc_of_glyph_of_le hg h
  obtain ⟨hpage, hcol⟩ := glyphCursor_lt (col := s.curCol.toNat) h
  have hcursor := glyphCursor_eq h s.curCol.toNat
  refine ⟨_, g, hg, glyphBytes_length hg, fun k => getElem?_glyphBytes hg, hexec, hcursor, hread _ _ hcursor, ?_, ?_,
    rfl⟩
  · refine (BitVec.toNat_ofNat _ 4).trans ?_
    rw [Nat.mod_eq_of_lt (by omega), hcursor]
  · refine (BitVec.toNat_ofNat _ 8).trans ?_
    rw [Nat.mod_eq_of_lt (by omega), hcursor]

/-! ## Every outcome of PUTC -/

/-- A code is the line-feed, or has a glyph, or is unsupported (R122). -/
theorem putc_code_cases (c : Byte) :
    c = 0x0A ∨ (∃ g, glyphBytes Config.glyphRom c = some g) ∨
      (c ≠ 0x0A ∧ glyphBytes Config.glyphRom c = none) := by
  by_cases hc : c = 0x0A
  · exact .inl hc
  · cases hg : glyphBytes Config.glyphRom c with
    | none => exact .inr (.inr ⟨hc, rfl⟩)
    | some g => exact .inr (.inl ⟨g, rfl⟩)

/-- Settles O52: the line-feed and the glyph name the page of the cursor, which stays above 8 through the wraps. -/
theorem putcStopsOnlyOnAPageThatDoesNotExist : Obligations.PutcStopsOnlyOnAPageThatDoesNotExist := by
  refine fun c s => ⟨fun h hc => ?_, fun h => ?_⟩
  · rcases hc with rfl | ⟨hlow, hhigh⟩
    · exact ⟨_, _, h, exec_putc_newline_of_ge h⟩
    · obtain ⟨g, hg⟩ := exists_glyphBytes hlow hhigh
      exact ⟨_, _, glyphCursor_page_of_ge h _, exec_putc_of_glyph_of_ge hg h⟩
  · rcases putc_code_cases c with rfl | ⟨g, hg⟩ | ⟨hc, hg⟩
    · obtain ⟨fb, hexec, -⟩ := exec_putc_newline_of_le h
      exact ⟨_, hexec⟩
    · obtain ⟨fb, hexec, -⟩ := exec_putc_of_glyph_of_le hg h
      exact ⟨_, hexec⟩
    · exact ⟨_, exec_putc_of_unsupported hc hg s⟩

/-! ## PUTC and PUTCAT -/

/-- With shift 0 the shifted blit is the blit (R131, R133). -/
theorem shiftBlit_zero (page col : Nat) (g : List Byte) (fb : Memory) :
    shiftBlit page 0 col g fb = orBlit page col g fb := by
  induction g generalizing col fb with
  | nil => rfl
  | cons v vs ih =>
    have hcell : shiftCell page 0 col v fb = orCell page col v fb := by
      rw [shiftCell, stayByte, BitVec.shiftLeft_zero]
      cases orCell page col v fb <;> rfl
    rw [shiftBlit, orBlit, hcell]
    cases orCell page col v fb with
    | ok fb' => exact ih (col + 1) fb'
    | error f => rfl

/-- Settles O59: at the top row of a page the shift is 0, and the cursor needs no wrap. -/
theorem putcatOnAPageRowMatchesPutc : Obligations.PutcatOnAPageRowMatchesPutc := by
  intro p row col c s hp hrow hcol hlow hhigh
  obtain ⟨g, hg⟩ := exists_glyphBytes hlow hhigh
  have hcorner : row.toNat ≤ 56 := by omega
  have hpage : (BitVec.ofNat 4 p).toNat = p := (BitVec.toNat_ofNat p 4).trans (Nat.mod_eq_of_lt (by omega))
  have hcursor : glyphCursor (BitVec.ofNat 4 p).toNat col.toNat = (p, col.toNat) := by
    rw [hpage, glyphCursor_of_le (by omega), normalisePage_of_ne (by omega)]
  obtain ⟨fb, hblit⟩ := shiftBlit_of_corner hcorner hcol (glyphBytes_length hg) s.fb
  have hor : orBlit (glyphCursor (BitVec.ofNat 4 p).toNat col.toNat).1
      (glyphCursor (BitVec.ofNat 4 p).toNat col.toNat).2 g s.fb = .ok fb := by
    rw [hcursor, ← shiftBlit_zero, ← hblit]
    congr 1 <;> omega
  exact ⟨_, _, exec_putcat_of_blit hcorner hcol hg hblit,
    exec_putc_of_blit (s := { s with curPage := BitVec.ofNat 4 p, curCol := col }) hg hor, rfl, rfl, rfl⟩

/-- Bytes that are only OR-ed into lose no pixel. -/
theorem pixel_of_read_or {fb fb' : Memory} (h : ∀ a, ∃ v, fb'.read a = fb.read a ||| v) {r c : Nat}
    (hpixel : fb.pixel r c = true) : fb'.pixel r c = true := by
  obtain ⟨v, hv⟩ := h (pixelAddr r c).addr.toNat
  rw [Memory.pixel] at hpixel ⊢
  rw [hv, BitVec.getLsbD_or, hpixel, Bool.true_or]

theorem putc_of_mnemonic {i : Instr} (h : i.mnemonic = .putc) : ∃ c, i = .putc c := by
  cases i with
  | putc c => exact ⟨c, rfl⟩
  | _ => cases h

theorem putcat_of_mnemonic {i : Instr} (h : i.mnemonic = .putcat) : ∃ row col c, i = .putcat row col c := by
  cases i with
  | putcat row col c => exact ⟨row, col, c, rfl⟩
  | _ => cases h

/-- PUTC of a code other than the line-feed only ORs into the framebuffer. -/
theorem read_or_of_exec_putc {c : Byte} {s t : State} (hc : c ≠ 0x0A) (h : exec (.putc c) s = .next t) (a : Nat) :
    ∃ v, t.fb.read a = s.fb.read a ||| v := by
  rcases putc_code_cases c with rfl | ⟨g, hg⟩ | ⟨-, hg⟩
  · exact absurd rfl hc
  · rcases Nat.lt_or_ge s.curPage.toNat 9 with hpage | hpage
    · obtain ⟨fb, hexec, -, hread⟩ := exec_putc_of_glyph_of_le hg (Nat.le_of_lt_succ hpage)
      cases hexec.symm.trans h
      simp only [hread _ _ rfl]
      split
      · exact ⟨_, rfl⟩
      · exact ⟨0, BitVec.or_zero.symm⟩
    · cases (exec_putc_of_glyph_of_ge hg hpage).symm.trans h
  · cases (exec_putc_of_unsupported hc hg s).symm.trans h
    exact ⟨0, BitVec.or_zero.symm⟩

/-- PUTCAT only ORs into the framebuffer. -/
theorem read_or_of_exec_putcat {row col c : Byte} {s t : State} (h : exec (.putcat row col c) s = .next t) (a : Nat) :
    ∃ v, t.fb.read a = s.fb.read a ||| v := by
  rcases exec_putcat_cases row col c with ⟨e, hexec⟩ | ⟨hr, hc, g, hg⟩
  · cases (hexec s).symm.trans h
    exact ⟨0, BitVec.or_zero.symm⟩
  · obtain ⟨fb, hexec, -, hread⟩ := exec_putcat_of_glyph hr hc hg s.fb
    cases (hexec s rfl).symm.trans h
    simp only [hread]
    split
    · exact ⟨_, rfl⟩
    · split
      · exact ⟨_, rfl⟩
      · exact ⟨0, BitVec.or_zero.symm⟩

/-- Settles O60: both commands only OR into the framebuffer. -/
theorem glyphsNeverClearAPixel : Obligations.GlyphsNeverClearAPixel := by
  intro i s t hmnemonic hne h r c _ _
  rcases hmnemonic with hputc | hputcat
  · obtain ⟨code, rfl⟩ := putc_of_mnemonic hputc
    exact pixel_of_read_or (read_or_of_exec_putc (fun hc => hne (hc ▸ rfl)) h)
  · obtain ⟨row, col, code, rfl⟩ := putcat_of_mnemonic hputcat
    exact pixel_of_read_or (read_or_of_exec_putcat h)

end Sys2Proof.Machine
end

section
/-! What a command does to the state as a whole: the commands that write the framebuffer and `ERR` only, and PUTC. Every
rule about all commands is read off from these two (10_state.md section 4, 60_exceptions.md section 1). -/

namespace Sys2Proof.Machine

/-! ## Framebuffers that show the same pixels -/

/-- The pixels of the display are the bits of the framebuffer's bytes. -/
theorem read_eq_of_pixel_eq {fb fb' : Memory} (h : ∀ r c, r < 64 → c < 128 → fb.pixel r c = fb'.pixel r c) {a : Nat}
    (ha : a < 1024) : fb.read a = fb'.read a := by
  apply BitVec.eq_of_getLsbD_eq
  intro bit hbit
  have hpixel := h (a / 128 * 8 + bit) (a % 128) (by omega) (Nat.mod_lt _ (by decide))
  rwa [pixel_page_bit fb (by omega) (Nat.mod_lt _ (by decide)) hbit,
    pixel_page_bit fb' (by omega) (Nat.mod_lt _ (by decide)) hbit, Nat.div_add_mod'] at hpixel

/-- Painting again what has been painted changes nothing. -/
theorem paint_paint (m : Mode) (ps : List Point) {fb : Memory} (h : fb.wf = true) :
    paint m ps (paint m ps fb) = paint m ps fb := by
  refine Memory.eq_of_read_eq (wf_paint m ps (wf_paint m ps h)) (wf_paint m ps h)
    fun a ha => read_eq_of_pixel_eq (fun r c hr hc => ?_) ha
  rw [pixel_paint m ps _ hr hc, pixel_paint m ps _ hr hc]
  split <;> rfl

/-! ## Commands that write the framebuffer and `ERR` only -/

/-- The command `i` writes the code `e` to `ERR`, changes the framebuffer by `f`, and neither reads nor writes anything
else. -/
structure FbEffect (i : Instr) (e : ErrCode) (f : Memory → Memory) : Prop where
  exec_eq : ∀ s, exec i s = .next { s with fb := f s.fb, err := e.toByte }
  wf : ∀ fb, fb.wf = true → (f fb).wf = true
  /-- The change can be repeated (20_memory.md R48). -/
  repeated : ∀ fb, fb.wf = true → f (f fb) = f fb
  /-- Unless it is a composite, the command changes nothing when it fails (R153). -/
  failed : i.mnemonic ≠ .rect → i.mnemonic ≠ .arc → e ≠ .ok → ∀ fb, f fb = fb

/-- A command that only reports a code. -/
theorem fbEffect_of_code {i : Instr} {e : ErrCode} (h : ∀ s, exec i s = .next { s with err := e.toByte }) :
    FbEffect i e id where
  exec_eq := h
  wf _ hwf := hwf
  repeated _ _ := rfl
  failed _ _ _ _ := rfl

/-- A command that paints a list of points. -/
theorem fbEffect_of_painted {i : Instr} {m : Mode} {ps : List Point} {e : ErrCode}
    (h : ∀ s, exec i s = .next (s.painted m ps e))
    (hfailed : i.mnemonic ≠ .rect → i.mnemonic ≠ .arc → e ≠ .ok → ps = []) : FbEffect i e (paint m ps) where
  exec_eq := h
  wf _ hwf := wf_paint m ps hwf
  repeated _ hwf := paint_paint m ps hwf
  failed hrect harc he fb := by rw [hfailed hrect harc he, paint_nil]

/-- A command made of one checked drawing. -/
theorem fbEffect_of_drawChecked {i : Instr} {checks : List ErrCode} {t m : Byte} {ps : List Point}
    (h : ∀ s, exec i s = conclude (drawChecked checks t m ps s.fb) s) : ∃ e f, FbEffect i e f :=
  ⟨_, _, fbEffect_of_painted (fun s => (h s).trans (conclude_drawChecked checks t m ps s))
    fun _ _ he => if_neg he⟩

/-- A composite of checked drawings. -/
theorem fbEffect_of_runAll {i : Instr} {t m : Byte} {parts : List (List ErrCode × List Point)}
    (hi : i.mnemonic = .rect ∨ i.mnemonic = .arc)
    (h : ∀ s, exec i s = conclude (runAll (parts.map fun part => drawChecked part.1 t m part.2) s.fb) s) :
    ∃ e f, FbEffect i e f :=
  ⟨_, _, fbEffect_of_painted (fun s => (h s).trans (conclude_runAll t m parts s))
    fun hrect harc => absurd hi (not_or.mpr ⟨hrect, harc⟩)⟩

/-- PUTCAT of a glyph with its corner in range ORs the same bytes in again when it is repeated. -/
theorem fbEffect_putcat (row col c : Byte) : ∃ e f, FbEffect (.putcat row col c) e f := by
  rcases exec_putcat_cases row col c with ⟨e, hexec⟩ | ⟨hr, hc, g, hg⟩
  · exact ⟨e, id, fbEffect_of_code hexec⟩
  · choose f hexec hwf hread using exec_putcat_of_glyph hr hc hg
    refine ⟨.ok, f, fun s => hexec s.fb s rfl, hwf, fun fb h => ?_, fun _ _ he => absurd rfl he⟩
    refine Memory.eq_of_read_eq (hwf _ (hwf fb h)) (hwf fb h) fun a _ => ?_
    rw [hread (f fb), hread fb]
    split
    · rw [BitVec.or_assoc, BitVec.or_self]
    · split
      · rw [BitVec.or_assoc, BitVec.or_self]
      · rfl

theorem fbEffect_arc (cx cy r a e t m : Byte) : ∃ code f, FbEffect (.arc cx cy r a e t m) code f := by
  rcases Nat.lt_or_ge 1 t.toNat with ht | ht
  · exact ⟨.unsupportedThickness, id, fbEffect_of_code (exec_arc_of_thick ht cx cy r a e m)⟩
  · exact fbEffect_of_runAll (.inr rfl) (exec_arc_of_thin ht cx cy r a e m)

/-- Every command is PUTC, one of the cursor setters, or one that writes the framebuffer and `ERR` only. -/
theorem instr_cases (i : Instr) :
    (∃ c, i = .putc c) ∨ (∃ p, i = .setpg p) ∨ (∃ c, i = .setcol c) ∨
      (i.mnemonic ≠ .putc ∧ ∃ e f, FbEffect i e f) := by
  cases i with
  | putc c => exact .inl ⟨c, rfl⟩
  | setpg p => exact .inr (.inl ⟨p, rfl⟩)
  | setcol c => exact .inr (.inr (.inl ⟨c, rfl⟩))
  | pix row col m => exact .inr (.inr (.inr ⟨nofun, fbEffect_of_drawChecked (exec_pix row col m)⟩))
  | point row col t m => exact .inr (.inr (.inr ⟨nofun, fbEffect_of_drawChecked (exec_point row col t m)⟩))
  | hline colA colB row t m =>
    exact .inr (.inr (.inr ⟨nofun, fbEffect_of_drawChecked (exec_hline colA colB row t m)⟩))
  | vline col rowA rowB t m =>
    exact .inr (.inr (.inr ⟨nofun, fbEffect_of_drawChecked (exec_vline col rowA rowB t m)⟩))
  | line x1 y1 x2 y2 t m => exact .inr (.inr (.inr ⟨nofun, fbEffect_of_drawChecked (exec_line x1 y1 x2 y2 t m)⟩))
  | rect x1 y1 x2 y2 t m =>
    exact .inr (.inr (.inr ⟨nofun, fbEffect_of_runAll (.inl rfl) (exec_rect x1 y1 x2 y2 t m)⟩))
  | arc cx cy r a e t m => exact .inr (.inr (.inr ⟨nofun, fbEffect_arc cx cy r a e t m⟩))
  | putcat row col c => exact .inr (.inr (.inr ⟨nofun, fbEffect_putcat row col c⟩))

theorem FbEffect.eq_of_next {i : Instr} {e : ErrCode} {f : Memory → Memory} (heffect : FbEffect i e f) {s t : State}
    (h : exec i s = .next t) : t = { s with fb := f s.fb, err := e.toByte } := by
  cases (heffect.exec_eq s).symm.trans h
  rfl

/-! ## The cursor setters -/

/-- What SETPG answers. -/
theorem next_of_exec_setpg {p : Byte} {s t : State} (h : exec (.setpg p) s = .next t) :
    (p.toNat < 8 ∧ t = { s with curPage := p.setWidth 4, err := 0 }) ∨ (8 ≤ p.toNat ∧ t = { s with err := 3 }) := by
  rcases Nat.lt_or_ge p.toNat 8 with hp | hp
  · cases (exec_setpg_of_lt hp s).symm.trans h
    exact .inl ⟨hp, rfl⟩
  · cases (exec_setpg_of_ge hp s).symm.trans h
    exact .inr ⟨hp, rfl⟩

/-- What SETCOL answers. -/
theorem next_of_exec_setcol {c : Byte} {s t : State} (h : exec (.setcol c) s = .next t) :
    (c.toNat ≤ 120 ∧ t = { s with curCol := c, err := 0 }) ∨ (121 ≤ c.toNat ∧ t = { s with err := 2 }) := by
  rcases Nat.lt_or_ge 120 c.toNat with hc | hc
  · cases (exec_setcol_of_gt hc s).symm.trans h
    exact .inr ⟨hc, rfl⟩
  · cases (exec_setcol_of_le hc s).symm.trans h
    exact .inl ⟨hc, rfl⟩

/-! ## PUTC -/

/-- PUTC of `c` from `s`, whatever the framebuffer: it leaves `c` in `RET`, the code `e` in `ERR`, and `page` and `col`
in the cursor. -/
structure PutcEffect (c : Byte) (s : State) (page : BitVec 4) (col : Byte) (e : ErrCode) : Prop where
  exec_eq : ∀ fb, ∃ fb',
    exec (.putc c) { s with fb := fb } =
        .next { s with fb := fb', curPage := page, curCol := col, ret := c, err := e.toByte } ∧
      (fb.wf = true → fb'.wf = true) ∧ (e ≠ .ok → fb' = fb)
  failed : e ≠ .ok → page = s.curPage ∧ col = s.curCol
  /-- 10_state.md R31 (a) to (c). -/
  ranges : e = .ok → page.toNat ≤ 8 ∧ col.toNat ≤ 127 ∧ (page.toNat = 8 → col.toNat ≤ 120)

theorem putcEffect_newline {s : State} (h : s.curPage.toNat ≤ 8) :
    PutcEffect 0x0A s (BitVec.ofNat 4 (s.curPage.toNat % 8 + 1)) 0 .ok where
  exec_eq fb := by
    obtain ⟨fb', hexec, hwf, -⟩ := exec_putc_newline_of_le (s := { s with fb := fb }) h
    exact ⟨fb', hexec, hwf, fun he => absurd rfl he⟩
  failed he := absurd rfl he
  ranges _ := by
    rw [BitVec.toNat_ofNat]
    refine ⟨by omega, by decide, fun _ => by decide⟩

theorem putcEffect_glyph {c : Byte} {g : List Byte} {s : State} (hg : glyphBytes Config.glyphRom c = some g)
    (h : s.curPage.toNat ≤ 8) :
    PutcEffect c s (BitVec.ofNat 4 (glyphCursor s.curPage.toNat s.curCol.toNat).1)
      (BitVec.ofNat 8 ((glyphCursor s.curPage.toNat s.curCol.toNat).2 + 6)) .ok where
  exec_eq fb := by
    obtain ⟨fb', hexec, hwf, -⟩ := exec_putc_of_glyph_of_le (s := { s with fb := fb }) hg h
    exact ⟨fb', hexec, hwf, fun he => absurd rfl he⟩
  failed he := absurd rfl he
  ranges _ := by
    obtain ⟨hpage, hcol⟩ := glyphCursor_lt (col := s.curCol.toNat) h
    rw [BitVec.toNat_ofNat, BitVec.toNat_ofNat]
    omega

theorem putcEffect_unsupported {c : Byte} (hc : c ≠ 0x0A) (hg : glyphBytes Config.glyphRom c = none) (s : State) :
    PutcEffect c s s.curPage s.curCol .unsupportedCharacter where
  exec_eq fb := ⟨fb, exec_putc_of_unsupported hc hg _, id, fun _ => rfl⟩
  failed _ := ⟨rfl, rfl⟩
  ranges he := by cases he

/-- Every PUTC that does not fault has an effect; with `CUR_PAGE` above 8 only an unsupported character does not. -/
theorem exists_putcEffect {c : Byte} {s t : State} (h : exec (.putc c) s = .next t) :
    ∃ page col e, PutcEffect c s page col e := by
  rcases putc_code_cases c with rfl | ⟨g, hg⟩ | ⟨hc, hg⟩
  · rcases Nat.lt_or_ge s.curPage.toNat 9 with hpage | hpage
    · exact ⟨_, _, _, putcEffect_newline (Nat.le_of_lt_succ hpage)⟩
    · cases (exec_putc_newline_of_ge hpage).symm.trans h
  · rcases Nat.lt_or_ge s.curPage.toNat 9 with hpage | hpage
    · exact ⟨_, _, _, putcEffect_glyph hg (Nat.le_of_lt_succ hpage)⟩
    · cases (exec_putc_of_glyph_of_ge hg hpage).symm.trans h
  · exact ⟨_, _, _, putcEffect_unsupported hc hg s⟩

/-- The state that a PUTC answers. -/
theorem next_of_exec_putc {c : Byte} {s t : State} (h : exec (.putc c) s = .next t) :
    ∃ fb page col e, PutcEffect c s page col e ∧
      t = { s with fb := fb, curPage := page, curCol := col, ret := c, err := e.toByte } ∧
      (s.fb.wf = true → fb.wf = true) ∧ (e ≠ .ok → fb = s.fb) := by
  obtain ⟨page, col, e, heffect⟩ := exists_putcEffect h
  obtain ⟨fb, hexec, hwf, hfailed⟩ := heffect.exec_eq s.fb
  cases hexec.symm.trans h
  exact ⟨fb, page, col, e, heffect, rfl, hwf, hfailed⟩

/-- PUTC reads neither `ERR`, which it overwrites at its end, nor anything that depends on it. -/
theorem exec_putc_err (c : Byte) (s : State) (v : Byte) : exec (.putc c) { s with err := v } = exec (.putc c) s := by
  rcases putc_code_cases c with rfl | ⟨g, hg⟩ | ⟨hc, hg⟩
  · rw [exec_putc_newline, exec_putc_newline]
    simp only [lineFeed]
    split
    · split <;> rfl
    · rfl
  · rw [exec_putc_of_glyph hg, exec_putc_of_glyph hg]
    simp only [putGlyph]
    split <;> rfl
  · rw [exec_putc_of_unsupported hc hg, exec_putc_of_unsupported hc hg]

end Sys2Proof.Machine
end

section
/-! Rules about every command: who reads and who writes the registers, failure, repetition (10_state.md section 4,
20_memory.md R48, 60_exceptions.md sections 1 and 3). -/

namespace Sys2Proof.Machine

/-- Settles O20: each kind of command writes the fields that its effect names. -/
theorem registersHaveOnlyTheirWriters : Obligations.RegistersHaveOnlyTheirWriters := by
  intro i s t h
  rcases instr_cases i with ⟨c, rfl⟩ | ⟨p, rfl⟩ | ⟨c, rfl⟩ | ⟨hputc, e, f, heffect⟩
  · obtain ⟨fb, page, col, e, -, rfl, -⟩ := next_of_exec_putc h
    refine ⟨fun hne => absurd rfl (hne c), fun hne => absurd rfl (hne c), fun hne => absurd rfl (hne c), ?_, rfl, rfl⟩
    rintro _ ⟨⟩
    rfl
  · rcases next_of_exec_setpg h with ⟨-, rfl⟩ | ⟨-, rfl⟩
    · exact ⟨fun _ hne => absurd rfl (hne p), fun _ _ => rfl, fun _ => rfl, nofun, rfl, rfl⟩
    · exact ⟨fun _ _ => rfl, fun _ _ => rfl, fun _ => rfl, nofun, rfl, rfl⟩
  · rcases next_of_exec_setcol h with ⟨-, rfl⟩ | ⟨-, rfl⟩
    · exact ⟨fun _ _ => rfl, fun _ hne => absurd rfl (hne c), fun _ => rfl, nofun, rfl, rfl⟩
    · exact ⟨fun _ _ => rfl, fun _ _ => rfl, fun _ => rfl, nofun, rfl, rfl⟩
  · rw [heffect.eq_of_next h]
    refine ⟨fun _ _ => rfl, fun _ _ => rfl, fun _ => rfl, fun c hc => ?_, rfl, rfl⟩
    exact absurd (congrArg Instr.mnemonic hc) hputc

/-- No command reads `ERR`. -/
theorem exec_err (i : Instr) (s : State) (v : Byte) : exec i { s with err := v } = exec i s := by
  rcases instr_cases i with ⟨c, rfl⟩ | ⟨p, rfl⟩ | ⟨c, rfl⟩ | ⟨-, e, f, heffect⟩
  · exact exec_putc_err c s v
  · rcases Nat.lt_or_ge p.toNat 8 with hp | hp
    · rw [exec_setpg_of_lt hp, exec_setpg_of_lt hp]
    · rw [exec_setpg_of_ge hp, exec_setpg_of_ge hp]
  · rcases Nat.lt_or_ge 120 c.toNat with hc | hc
    · rw [exec_setcol_of_gt hc, exec_setcol_of_gt hc]
    · rw [exec_setcol_of_le hc, exec_setcol_of_le hc]
  · rw [heffect.exec_eq, heffect.exec_eq]

/-- Settles O21: a command other than PUTC and the setters has one effect on all states; a setter's check is about its
operand, and PUTC overwrites `RET` before it does anything else. -/
theorem registersHaveOnlyTheirReaders : Obligations.RegistersHaveOnlyTheirReaders := by
  refine ⟨exec_err, fun c s v => rfl, fun i s t page col ret hputc hsetpg hsetcol h => ?others,
    fun p s t page col ret h => ?setpg, fun c s t page col ret h => ?setcol⟩
  case others =>
    rcases instr_cases i with ⟨c, rfl⟩ | ⟨p, rfl⟩ | ⟨c, rfl⟩ | ⟨-, e, f, heffect⟩
    · exact absurd rfl (hputc c)
    · exact absurd rfl (hsetpg p)
    · exact absurd rfl (hsetcol c)
    · rw [heffect.eq_of_next h, heffect.exec_eq]
  case setpg =>
    rcases next_of_exec_setpg h with ⟨hp, rfl⟩ | ⟨hp, rfl⟩
    · rw [exec_setpg_of_lt hp]
      rfl
    · rw [exec_setpg_of_ge hp]
      rfl
  case setcol =>
    rcases next_of_exec_setcol h with ⟨hc, rfl⟩ | ⟨hc, rfl⟩
    · rw [exec_setcol_of_le hc]
      rfl
    · rw [exec_setcol_of_gt hc]
      rfl

/-- Settles O22: in every effect the code and the registers are the same for all framebuffers. -/
theorem framebufferNeverDecidesAnOutcome : Obligations.FramebufferNeverDecidesAnOutcome := by
  intro i s t fb h
  rcases instr_cases i with ⟨c, rfl⟩ | ⟨p, rfl⟩ | ⟨c, rfl⟩ | ⟨-, e, f, heffect⟩
  · obtain ⟨_, page, col, e, heffect, rfl, -⟩ := next_of_exec_putc h
    obtain ⟨fb', hexec, -⟩ := heffect.exec_eq fb
    exact ⟨fb', hexec⟩
  · rcases next_of_exec_setpg h with ⟨hp, rfl⟩ | ⟨hp, rfl⟩
    · exact ⟨fb, exec_setpg_of_lt hp _⟩
    · exact ⟨fb, exec_setpg_of_ge hp _⟩
  · rcases next_of_exec_setcol h with ⟨hc, rfl⟩ | ⟨hc, rfl⟩
    · exact ⟨fb, exec_setcol_of_le hc _⟩
    · exact ⟨fb, exec_setcol_of_gt hc _⟩
  · rw [heffect.eq_of_next h]
    exact ⟨f fb, heffect.exec_eq _⟩

/-- Settles O23: a failed effect changes neither the framebuffer nor the cursor. -/
theorem failedSimpleCommandsHaveNoEffect : Obligations.FailedSimpleCommandsHaveNoEffect := by
  intro i s t hrect harc h herr
  rcases instr_cases i with ⟨c, rfl⟩ | ⟨p, rfl⟩ | ⟨c, rfl⟩ | ⟨-, e, f, heffect⟩
  · obtain ⟨fb, page, col, e, heffect, rfl, -, hfb⟩ := next_of_exec_putc h
    have he : e ≠ .ok := ne_ok_of_toByte_ne_zero herr
    obtain ⟨rfl, rfl⟩ := heffect.failed he
    rw [hfb he]
    exact ⟨rfl, fun hne => absurd rfl hne⟩
  · rcases next_of_exec_setpg h with ⟨-, rfl⟩ | ⟨-, rfl⟩
    · exact absurd rfl herr
    · exact ⟨rfl, fun _ => rfl⟩
  · rcases next_of_exec_setcol h with ⟨-, rfl⟩ | ⟨-, rfl⟩
    · exact absurd rfl herr
    · exact ⟨rfl, fun _ => rfl⟩
  · have ht := heffect.eq_of_next h
    subst ht
    have he : e ≠ .ok := ne_ok_of_toByte_ne_zero herr
    rw [heffect.failed hrect harc he]
    exact ⟨rfl, fun _ => rfl⟩

/-- Settles O24: the same effect on a framebuffer that already has it changes nothing. -/
theorem drawingIsIdempotent : Obligations.DrawingIsIdempotent := by
  intro i s t hwf hputc h
  rcases instr_cases i with ⟨c, rfl⟩ | ⟨p, rfl⟩ | ⟨c, rfl⟩ | ⟨-, e, f, heffect⟩
  · exact absurd rfl hputc
  · rcases next_of_exec_setpg h with ⟨hp, rfl⟩ | ⟨hp, rfl⟩
    · exact exec_setpg_of_lt hp _
    · exact exec_setpg_of_ge hp _
  · rcases next_of_exec_setcol h with ⟨hc, rfl⟩ | ⟨hc, rfl⟩
    · exact exec_setcol_of_le hc _
    · exact exec_setcol_of_gt hc _
  · have ht := heffect.eq_of_next h
    subst ht
    rw [heffect.exec_eq, heffect.repeated s.fb hwf]

end Sys2Proof.Machine
end

section
/-! The invariants of 10_state.md R31 along every run, and the step that accepts a request. -/

namespace Sys2Proof.Machine

/-! ## The step of each request -/

/-- The host's table word is decoded as the word it stands for. -/
theorem decode_tableWord {nbits w : Nat} {i : Instr} (h : decodeTableWord nbits w = some i) :
    decode (tableWord nbits w) = .ok i := by
  have hbytes := decodeBytes_bytesOfWord_append (tableWord nbits w) []
  rw [List.append_nil] at hbytes
  rw [decodeTableWord, ← tableWord, hbytes] at h
  cases hdecode : decode (tableWord nbits w) with
  | ok j =>
    rw [hdecode] at h
    cases h
    rfl
  | error e =>
    rw [hdecode] at h
    cases h

/-- Settles O8: a command request is served by running its decoded word. -/
theorem stepRunsTheDecodedCommand : Obligations.StepRunsTheDecodedCommand := by
  refine ⟨fun s w rest i h hdecode _ => ?_, fun s nbits w i h => ?_⟩
  · rw [step_of_cons h]
    exact runCommand_of_ok hdecode _
  · rw [State.withFetchWord, step_present]
    exact runCommand_of_ok (decode_tableWord h) s

/-- Settles O13: a reset request is served by the reset event. -/
theorem resetEventAndIdleStep : Obligations.ResetEventAndIdleStep :=
  ⟨fun _ _ h => step_of_cons h, fun _ => step_idle⟩

/-! ## The invariants -/

/-- Settles O16: every register of the reset state is 0, and its framebuffer lists no cell. -/
theorem resetMeetsTheInvariants : Obligations.ResetMeetsTheInvariants where
  page := Nat.zero_le 8
  col := Nat.zero_le 127
  limit _ := Nat.zero_le 120
  err := Nat.zero_le 7
  memory := rfl

namespace State.Inv

variable {s : State}

/-- Leaving the cursor alone keeps R31 (a) to (c). -/
theorem of_cursor {t : State} (h : s.Inv) (hpage : t.curPage = s.curPage) (hcol : t.curCol = s.curCol)
    (herr : t.err.toNat ≤ 7) (hfb : t.fb.wf = true) : t.Inv where
  page := hpage ▸ h.page
  col := hcol ▸ h.col
  limit := by
    rw [hpage, hcol]
    exact h.limit
  err := herr
  memory := hfb

/-- The host's side is not part of the invariants. -/
theorem of_host (h : s.Inv) (requests : List Request) (replies : List Byte) :
    State.Inv { s with requests := requests, replies := replies } :=
  h.of_cursor rfl rfl h.err h.memory

/-- Every command keeps the invariants (R31). -/
theorem of_exec {i : Instr} {t : State} (h : s.Inv) (hexec : Machine.exec i s = .next t) : t.Inv := by
  rcases instr_cases i with ⟨c, rfl⟩ | ⟨p, rfl⟩ | ⟨c, rfl⟩ | ⟨-, e, f, heffect⟩
  · obtain ⟨fb, page, col, e, heffect, rfl, hwf, -⟩ := next_of_exec_putc hexec
    by_cases he : e = .ok
    · obtain ⟨hpage, hcol, hlimit⟩ := heffect.ranges he
      exact ⟨hpage, hcol, hlimit, toByte_le e, hwf h.memory⟩
    · obtain ⟨rfl, rfl⟩ := heffect.failed he
      exact h.of_cursor rfl rfl (toByte_le e) (hwf h.memory)
  · rcases next_of_exec_setpg hexec with ⟨hp, rfl⟩ | ⟨-, rfl⟩
    · have hpage : (p.setWidth 4).toNat = p.toNat :=
        (BitVec.toNat_setWidth ..).trans (Nat.mod_eq_of_lt (by omega))
      exact ⟨by rw [hpage]; omega, h.col, fun h8 => by rw [hpage] at h8; omega, Nat.zero_le 7, h.memory⟩
    · exact h.of_cursor rfl rfl (toByte_le .outOfRangePage) h.memory
  · rcases next_of_exec_setcol hexec with ⟨hc, rfl⟩ | ⟨-, rfl⟩
    · exact ⟨h.page, Nat.le_trans hc (by decide), fun _ => hc, Nat.zero_le 7, h.memory⟩
    · exact h.of_cursor rfl rfl (toByte_le .outOfRangeCol) h.memory
  · rw [heffect.eq_of_next hexec]
    exact h.of_cursor rfl rfl (toByte_le e) (heffect.wf _ h.memory)

/-- Serving a request keeps the invariants. -/
theorem of_serve {q : Request} {t : State} (h : s.Inv) (hserve : Machine.serve q s = .next t) : t.Inv := by
  cases q with
  | command w =>
    cases hdecode : decode w with
    | ok i => exact h.of_exec ((runCommand_of_ok hdecode s).symm.trans hserve)
    | error e =>
      cases (runCommand_of_error hdecode s).symm.trans hserve
      exact h.of_cursor rfl rfl (toByte_le .illegalCommand) h.memory
  | regRead n =>
    cases hserve
    exact h.of_host _ _
  | fbRead a =>
    cases hserve
    exact h.of_host _ _
  | reset =>
    cases hserve
    exact resetMeetsTheInvariants.of_host _ _

/-- A command from a state that meets the invariants goes on: only PUTC can stop, and only with `CUR_PAGE` above 8. -/
theorem exec_next (h : s.Inv) (i : Instr) : ∃ t, Machine.exec i s = .next t := by
  rcases instr_cases i with ⟨c, rfl⟩ | ⟨p, rfl⟩ | ⟨c, rfl⟩ | ⟨-, e, f, heffect⟩
  · exact (putcStopsOnlyOnAPageThatDoesNotExist c s).2 h.page
  · rcases Nat.lt_or_ge p.toNat 8 with hp | hp
    · exact ⟨_, exec_setpg_of_lt hp s⟩
    · exact ⟨_, exec_setpg_of_ge hp s⟩
  · rcases Nat.lt_or_ge 120 c.toNat with hc | hc
    · exact ⟨_, exec_setcol_of_gt hc s⟩
    · exact ⟨_, exec_setcol_of_le hc s⟩
  · exact ⟨_, heffect.exec_eq s⟩

theorem serve_next (h : s.Inv) (q : Request) : ∃ t, Machine.serve q s = .next t := by
  cases q with
  | command w =>
    cases hdecode : decode w with
    | ok i =>
      obtain ⟨t, hexec⟩ := h.exec_next i
      exact ⟨t, (runCommand_of_ok hdecode s).trans hexec⟩
    | error e => exact ⟨_, runCommand_of_error hdecode s⟩
  | regRead n => exact ⟨_, rfl⟩
  | fbRead a => exact ⟨_, rfl⟩
  | reset => exact ⟨_, rfl⟩

end State.Inv

/-- Settles O17: accepting a request changes only the host's side, and serving it keeps the invariants. -/
theorem stepKeepsTheInvariants : Obligations.StepKeepsTheInvariants := by
  intro s t h hstep
  cases hrequests : s.requests with
  | nil =>
    cases (step_idle hrequests).symm.trans hstep
    exact h
  | cons q rest =>
    rw [step_of_cons hrequests] at hstep
    exact (h.of_host rest s.replies).of_serve hstep

/-- Settles O18: the idle step answers the state itself, and serving a request from such a state goes on. -/
theorem invariantStatesAlwaysProceed : Obligations.InvariantStatesAlwaysProceed := by
  intro s h
  cases hrequests : s.requests with
  | nil => exact ⟨s, step_idle hrequests⟩
  | cons q rest =>
    obtain ⟨t, hserve⟩ := (h.of_host rest s.replies).serve_next q
    exact ⟨t, (step_of_cons hrequests).trans hserve⟩

/-- A run of one more step begins with a step that goes on. -/
theorem run_succ_next {M : Host.Core} {n : Nat} {s t : M.State} (h : M.run (n + 1) s = .next t) :
    ∃ u, M.step s = .next u ∧ M.run n u = .next t := by
  rw [Host.Core.run] at h
  split at h
  next u hstep => exact ⟨u, hstep, h⟩
  all_goals cases h

/-- What every step keeps holds along every run. -/
theorem run_keeps {P : State → Prop} (hP : ∀ s t, P s → step s = .next t → P t) (n : Nat) {s t : State} (h : P s)
    (hrun : Sys2Proof.core.run n s = .next t) : P t := by
  induction n generalizing s with
  | zero =>
    cases hrun
    exact h
  | succ n ih =>
    obtain ⟨u, hstep, hrest⟩ := run_succ_next (M := Sys2Proof.core) hrun
    exact ih (hP s u h hstep) hrest

/-- Settles O19: the invariants hold at reset, every step keeps them, and none of them is about the requests. -/
theorem reachableStatesKeepTheirRanges : Obligations.ReachableStatesKeepTheirRanges := by
  rintro qs s ⟨n, hrun⟩
  have h : s.Inv := run_keeps (P := State.Inv) stepKeepsTheInvariants n (resetMeetsTheInvariants.of_host qs []) hrun
  exact ⟨h.page, h.col, h.limit, h.err, h.memory,
    fun more => invariantStatesAlwaysProceed _ (h.of_host more s.replies)⟩

end Sys2Proof.Machine
end
